-- ==== Sys2Proof/Config.lean ====
section
/-! DEFINITION. The implementation parameters of the CORE block (spec/00_scope.md R5).

Every parameter has one value for this hardware (spec/92_eei_decisions.md, "Parameters left OPEN":
none is left open), so nothing here is a free value.  The widths `REG_WIDTH` 8, `PC_WIDTH` 16,
`STACK_ENTRY_WIDTH` 16 and `SP_WIDTH` 5, and `NUM_REGS` 16, stand in the types of Word.lean,
Syntax.lean and Machine/State.lean.  `LOAD_OFFSET` is a convention of the loader that the core
neither knows nor checks (R58), so nothing here names it. -/

namespace Sys2Proof.Config

/-- `MEM_SIZE` (R5, decision D17): memory holds the addresses 0 to 4095. -/
abbrev memSize : Nat := 4096

/-- `STACK_DEPTH` (R5, decision D17): the capacity of the call stack. -/
abbrev stackDepth : Nat := 16

/-- `FLAG_REG` (R5, R23): the index of the flag register `VF`. -/
abbrev flagReg : Fin 16 := 15

/-- `INSTR_BYTES` (R5, R70): every instruction is one two-byte word. -/
abbrev instrBytes : Nat := 2

/-- `ENTRY` (R5, R36, decision D3): the value of `pc` after reset. -/
abbrev entry : BitVec 16 := 0

/-- `SHL_FLAG_BIT` (R5, R119, decision D8): which bit of its operand SHL copies to `VF`. -/
abbrev shlFlagBit : Nat := 0

/-- `ADD_STORES_ON_CARRY` (R5, R115, decision D9): ADD does not store its sum when it carries. -/
abbrev addStoresOnCarry : Bool := false

/-- `SUB_FLAG_NO_BORROW` (R5, R116, decision D23): what `VF` receives when no borrow occurs. -/
abbrev subFlagNoBorrow : BitVec 8 := 1

/-- What `VF` receives when a borrow occurs: the other value of the flag (R5, R116). -/
abbrev subFlagBorrow : BitVec 8 := 1 - subFlagNoBorrow

end Sys2Proof.Config
end

