-- ==== Sys2Proof/Word.lean ====
section
/-! DEFINITION. The value types of the hardware: all values are unsigned (spec/00_scope.md R7). -/

namespace Sys2Proof

/-- The 8 bits of a general register or of a byte of memory (R21, R50). -/
abbrev Byte := BitVec 8

/-- The 16 bits of an instruction word, of `pc` and of a call-stack entry (R5, R70). -/
abbrev Word := BitVec 16

/-- The 12 bits of CALL's operand `nnn`, and of a memory address 0 to 4095 (R50, R71). -/
abbrev Addr := BitVec 12

end Sys2Proof
end

