-- ==== Sys2Proof/Machine/Flags.lean ====
section
/-! DEFINITION. The ALU as pure functions of the two operands (spec/41_alu.md R120): the new value
of `V[x]` and the new `VF`, each `none` where the instruction does not write it. -/

namespace Sys2Proof.Machine

/-- What an ALU operation writes: the columns "new `V[x]`" and "new `VF`" of R120. -/
structure AluOut where
  result : Option Byte
  flag : Option Byte
  deriving DecidableEq, Repr

/-- MOV (R111): no flag side effect. -/
def Alu.mov (_ b : Byte) : AluOut := ⟨some b, none⟩

/-- OR (R112): no flag side effect. -/
def Alu.or (a b : Byte) : AluOut := ⟨some (a ||| b), none⟩

/-- AND (R113): no flag side effect. -/
def Alu.and (a b : Byte) : AluOut := ⟨some (a &&& b), none⟩

/-- XOR (R114): no flag side effect. -/
def Alu.xor (a b : Byte) : AluOut := ⟨some (a ^^^ b), none⟩

/-- ADD (R115): the sum on unbounded integers; on carry it is not stored (`ADD_STORES_ON_CARRY`). -/
def Alu.add (a b : Byte) : AluOut :=
  let sum := a.toNat + b.toNat
  if sum > 255 then
    ⟨if Config.addStoresOnCarry then some (BitVec.ofNat 8 sum) else none, some 1⟩
  else ⟨some (BitVec.ofNat 8 sum), some 0⟩

/-- SUB (R116): on borrow the difference is not stored. -/
def Alu.sub (a b : Byte) : AluOut :=
  if a.toNat < b.toNat then ⟨none, some Config.subFlagBorrow⟩
  else ⟨some (BitVec.ofNat 8 (a.toNat - b.toNat)), some Config.subFlagNoBorrow⟩

/-- RSUB (R118): `b - a`, on borrow not stored. -/
def Alu.rsub (a b : Byte) : AluOut :=
  if a.toNat > b.toNat then ⟨none, some Config.subFlagBorrow⟩
  else ⟨some (BitVec.ofNat 8 (b.toNat - a.toNat)), some Config.subFlagNoBorrow⟩

/-- Bit `k` of `a`, as the value 0 or 1 of a flag. -/
def Alu.bit (a : Byte) (k : Nat) : Byte := if a.getLsbD k then 1 else 0

/-- SHR (R117): bit 0 to the flag, a logical shift by one; the second operand is not used (R78). -/
def Alu.shr (a : Byte) : AluOut := ⟨some (a >>> 1), some (Alu.bit a 0)⟩

/-- SHL (R119): bit `SHL_FLAG_BIT` = 0 to the flag, not the bit shifted out; bit 7 is lost. -/
def Alu.shl (a : Byte) : AluOut := ⟨some (a <<< 1), some (Alu.bit a Config.shlFlagBit)⟩

end Sys2Proof.Machine
end

