-- ==== Sys2Proof/Syntax.lean ====
section
/-! DEFINITION. The twelve instructions (spec/30_encoding.md R76), one constructor for each row of
spec/opcode_table.json. -/

namespace Sys2Proof

/-- The index of a general register, `V[0]` to `V[15]`: a 4-bit field, so every index an
instruction can form is valid (R22). -/
abbrev Reg := Fin 16

/-- The complete instruction list (R76).  `shr` and `shl` keep the `y` field of their word, all
sixteen values of which are legal and have no effect (R78). -/
inductive Instr where
  | halt
  | ret
  | call (nnn : Addr)
  | mov (x y : Reg)
  | or (x y : Reg)
  | and (x y : Reg)
  | xor (x y : Reg)
  | add (x y : Reg)
  | sub (x y : Reg)
  | shr (x y : Reg)
  | rsub (x y : Reg)
  | shl (x y : Reg)
  deriving DecidableEq, Repr

end Sys2Proof
end

