-- ==== Sys2Proof/WellFormed.lean ====
section
/-! DEFINITION. The ranges the operands of an instruction have (spec/30_encoding.md R71, R73).

The operand types of Instr already hold every operand in its range, as the 4-bit and 12-bit fields
of the hardware do (R22), so every term of Instr meets `Instr.wellFormed`
(Sys2Proof/Laws/Decode.lean, wellFormed_all).  The two range checks are stated on plain numbers, so
that what they refuse can be shown. -/

namespace Sys2Proof

/-- A register index fits the 4-bit fields `x` and `y` (R22, R71). -/
def fitsReg (n : Nat) : Bool := n < 16

/-- An address operand fits the 12-bit field `nnn` (R71, R73). -/
def fitsAddr (n : Nat) : Bool := n < 4096

/-- Every operand is one its field can hold.  Nothing else is asked: no combination of registers,
no alignment of a target and no value of the shifts' ignored field is illegal (R28, R78, R110). -/
def Instr.wellFormed : Instr → Bool
  | .halt => true
  | .ret => true
  | .call nnn => fitsAddr nnn.toNat
  | .mov x y => fitsReg x.val && fitsReg y.val
  | .or x y => fitsReg x.val && fitsReg y.val
  | .and x y => fitsReg x.val && fitsReg y.val
  | .xor x y => fitsReg x.val && fitsReg y.val
  | .add x y => fitsReg x.val && fitsReg y.val
  | .sub x y => fitsReg x.val && fitsReg y.val
  | .shr x y => fitsReg x.val && fitsReg y.val
  | .rsub x y => fitsReg x.val && fitsReg y.val
  | .shl x y => fitsReg x.val && fitsReg y.val

end Sys2Proof
end

