-- ==== Sys2Proof/Decode.lean ====
section
/-! DEFINITION. The instruction decoder (spec/30_encoding.md, spec/40_fetch_decode_dispatch.md R93,
R94), the encoder and the opcode table.  Decoding reads no state and is total (R81). -/

namespace Sys2Proof

/-- The word whose first byte in memory is `hi`: `(hi << 8) | lo` (R54, R90). -/
def be16 (hi lo : Byte) : Word := (hi.setWidth 16 <<< 8) ||| lo.setWidth 16

/-- Bits 15 to 8 of a word: the byte at the lower address (R54). -/
def hiByte (op : Word) : Byte := op.extractLsb' 8 8

/-- Bits 7 to 0 of a word: the byte at the higher address (R54). -/
def loByte (op : Word) : Byte := op.extractLsb' 0 8

/-- `major` = `op[15:12]` (R71). -/
def majorOf (op : Word) : BitVec 4 := op.extractLsb' 12 4

/-- `x` = `op[11:8]` (R71). -/
def xOf (op : Word) : Reg := (op.extractLsb' 8 4).toFin

/-- `y` = `op[7:4]` (R71). -/
def yOf (op : Word) : Reg := (op.extractLsb' 4 4).toFin

/-- `n` = `op[3:0]`, the minor opcode (R71). -/
def minorOf (op : Word) : BitVec 4 := op.extractLsb' 0 4

/-- `nnn` = `op[11:0]` (R71). -/
def nnnOf (op : Word) : Addr := op.extractLsb' 0 12

/-- Why the decoder gives no instruction. -/
inductive Reject where
  /-- The word is none of the twelve instructions (R79); the step that fetched it raises
  UnimplementedOpcode (R164).  Not a departure: the spec's own outcome. -/
  | unimplementedOpcode
  /-- Fewer than two bytes were given.  No fetch does so: it reads both bytes or neither (R56).
  Safe: only a caller that hands over a short list sees it. -/
  | tooFewBytes
  deriving DecidableEq, Repr

/-- The ALU family, selected by the minor opcode (R74, case 4). -/
def decodeAlu (n : BitVec 4) (x y : Reg) : Except Reject Instr :=
  match n.toNat with
  | 0x0 => .ok (.mov x y)
  | 0x1 => .ok (.or x y)
  | 0x2 => .ok (.and x y)
  | 0x3 => .ok (.xor x y)
  | 0x4 => .ok (.add x y)
  | 0x5 => .ok (.sub x y)
  | 0x6 => .ok (.shr x y)
  | 0x7 => .ok (.rsub x y)
  | 0xE => .ok (.shl x y)
  | _ => .error .unimplementedOpcode

/-- The dispatch precedence of R74 and R90, on a whole word. -/
def decodeWord (op : Word) : Except Reject Instr :=
  if op = 0x0000#16 then .ok .halt
  else if op = 0x00EE#16 then .ok .ret
  else if majorOf op = 0x2#4 then .ok (.call (nnnOf op))
  else if majorOf op = 0x8#4 then decodeAlu (minorOf op) (xOf op) (yOf op)
  else .error .unimplementedOpcode

/-- Decoding of bytes in memory order: the instruction of the first two, and the bytes after it
(R70: one length, most significant byte first). -/
def decode : List Byte → Except Reject (Instr × List Byte)
  | hi :: lo :: rest =>
    match decodeWord (be16 hi lo) with
    | .ok i => .ok (i, rest)
    | .error e => .error e
  | _ => .error .tooFewBytes

/-- Format `A` (R72): `major` = 2, then `nnn`. -/
def formatA (nnn : Addr) : Word := 0x2#4 ++ nnn

/-- Format `R` (R72): `major` = 8, then `x`, `y` and the minor opcode. -/
def formatR (x y : Reg) (n : BitVec 4) : Word :=
  0x8#4 ++ (BitVec.ofFin (w := 4) x ++ (BitVec.ofFin (w := 4) y ++ n))

/-- The word of an instruction, from the patterns of R76. -/
def encode : Instr → Word
  | .halt => 0x0000#16
  | .ret => 0x00EE#16
  | .call nnn => formatA nnn
  | .mov x y => formatR x y 0x0#4
  | .or x y => formatR x y 0x1#4
  | .and x y => formatR x y 0x2#4
  | .xor x y => formatR x y 0x3#4
  | .add x y => formatR x y 0x4#4
  | .sub x y => formatR x y 0x5#4
  | .shr x y => formatR x y 0x6#4
  | .rsub x y => formatR x y 0x7#4
  | .shl x y => formatR x y 0xE#4

/-- The two bytes of a word in memory order (R54, R70). -/
def wordBytes (op : Word) : List Byte := [hiByte op, loByte op]

/-- The bytes of an instruction in memory order. -/
def encodeBytes (i : Instr) : List Byte := wordBytes (encode i)

/-- One row of the instruction list: a word `w` is the instruction when `w & mask = pattern`
(R76; the spec's column `match` is the field `pattern`). -/
structure OpcodeRow where
  mnemonic : String
  pattern : Word
  mask : Word
  deriving DecidableEq, Repr

/-- The row of R76 an instruction belongs to. -/
def Instr.row : Instr → OpcodeRow
  | .halt => ⟨"HALT", 0x0000#16, 0xFFFF#16⟩
  | .ret => ⟨"RET", 0x00EE#16, 0xFFFF#16⟩
  | .call _ => ⟨"CALL", 0x2000#16, 0xF000#16⟩
  | .mov _ _ => ⟨"MOV", 0x8000#16, 0xF00F#16⟩
  | .or _ _ => ⟨"OR", 0x8001#16, 0xF00F#16⟩
  | .and _ _ => ⟨"AND", 0x8002#16, 0xF00F#16⟩
  | .xor _ _ => ⟨"XOR", 0x8003#16, 0xF00F#16⟩
  | .add _ _ => ⟨"ADD", 0x8004#16, 0xF00F#16⟩
  | .sub _ _ => ⟨"SUB", 0x8005#16, 0xF00F#16⟩
  | .shr _ _ => ⟨"SHR", 0x8006#16, 0xF00F#16⟩
  | .rsub _ _ => ⟨"RSUB", 0x8007#16, 0xF00F#16⟩
  | .shl _ _ => ⟨"SHL", 0x800E#16, 0xF00F#16⟩

/-- The instruction list of R76 in its order. -/
def opcodeTable : List OpcodeRow :=
  [Instr.row .halt, Instr.row .ret, Instr.row (.call 0), Instr.row (.mov 0 0),
   Instr.row (.or 0 0), Instr.row (.and 0 0), Instr.row (.xor 0 0), Instr.row (.add 0 0),
   Instr.row (.sub 0 0), Instr.row (.shr 0 0), Instr.row (.rsub 0 0), Instr.row (.shl 0 0)]

/-- A word is the instruction of a row (R76). -/
def OpcodeRow.covers (r : OpcodeRow) (op : Word) : Bool := op &&& r.mask = r.pattern

/-- The bytes the hardware stores for an instruction whose bits are `w`, numbered as
spec/opcode_table.json numbers them; every bit at or above `nbits` is 0. -/
def tableBytes (nbits w : Nat) : List Byte := wordBytes (BitVec.ofNat 16 (w % 2 ^ nbits))

/-- The instruction the decoder reads from those bytes. -/
def decodeTableWord (nbits w : Nat) : Option Instr :=
  match decode (tableBytes nbits w) with
  | .ok (i, _) => some i
  | .error _ => none

end Sys2Proof
end

