-- ==== Sys2Proof/Machine/State.lean ====
section
/-! DEFINITION. The machine's state: the six elements of spec/10_state.md R20 and nothing else, and
their values after reset (R36, spec/70_reset_and_hazards.md R190). -/

namespace Sys2Proof.Machine

/-- The four fatal faults (spec/60_exceptions.md R160, R175: one constructor each).

Raising one is an effect the spec describes in full (R165, R168), so the step that raises it
answers a NEXT state whose `status.cause` is that fault; neither `step` nor `exec` ever answers
the outcome `fault` (log 4: DESIGN CHOICE, safe). -/
inductive Fault where
  /-- Raised by CALL alone, when `sp` = 16 (R161).  Safe: the spec's own outcome. -/
  | stackOverflow
  /-- Raised by RET alone, when `sp` = 0 (R162).  Safe: the spec's own outcome. -/
  | stackUnderflow
  /-- Raised by the fetch of any step, when `pc` > 4094 (R163).  Safe: the spec's own outcome. -/
  | outOfBounds
  /-- Raised at dispatch, for a word that is none of the twelve instructions (R164).  Safe: the
  spec's own outcome. -/
  | unimplementedOpcode
  deriving DecidableEq, Repr

/-- Why the model gives an instruction no meaning. -/
inductive Refusal where
  /-- An arm of `exec` whose instruction has no meaning yet.  No arm answers it: all twelve
  instructions are modelled.  Safe. -/
  | notModelled (mnemonic : String)
  deriving DecidableEq, Repr

/-- The values of `status.state` (R33). -/
inductive RunState where
  | idle
  | running
  | halted
  | faulted
  deriving DecidableEq, Repr

/-- The run-status register (R33, decision D10): two fields of enumerated values (log 8: DEDUCED, safe).  Its 5 bits as
the host reads them are `Status.bits` (Machine/HostPort.lean). -/
structure Status where
  /-- `status.state`. -/
  state : RunState
  /-- `status.cause`; `none` is the code 0. -/
  cause : Option Fault
  deriving DecidableEq, Repr

/-- The complete architectural state (R20). -/
structure State where
  /-- `V[0..15]`, sixteen registers of 8 bits; `V[15]` is the flag register (R21, R23). -/
  v : Vector Byte 16
  /-- `mem[0..4095]`: the bytes that are not 0, by rising address (R50; log 7: DEDUCED, safe). -/
  mem : List Host.Cell
  /-- The program counter, 16 bits (R25, R27). -/
  pc : Word
  /-- `stack[0..15]`, sixteen entries of 16 bits (R30). -/
  stack : Vector Word 16
  /-- The stack pointer, 0 to 16 (R31; log 5: DEDUCED, safe). -/
  sp : Fin 17
  /-- The run-status register (R33). -/
  status : Status
  deriving DecidableEq, Repr

/-- The state after reset, and at power-on (R36, R190, R193). -/
def State.reset : State where
  v := Vector.replicate 16 0
  mem := []
  pc := Config.entry
  stack := Vector.replicate 16 0
  sp := 0
  status := ⟨.idle, none⟩

end Sys2Proof.Machine
end

