-- ==== Sys2Proof/Machine/Ops.lean ====
section
/-! DEFINITION. The named operations over the state: general registers, memory, program counter,
call stack, and raising a fault.

There is no operation for returning from a fault: nothing does (spec/60_exceptions.md R171). -/

namespace Sys2Proof.Machine

/-! ### General registers (spec/10_state.md R21, R22) -/

/-- Read of `V[r]`: no register is hard-wired, none aliases another (R21). -/
def State.getV (s : State) (r : Reg) : Byte := s.v[r.val]

/-- Write of `V[r]` (R22). -/
def State.setV (s : State) (r : Reg) (b : Byte) : State := { s with v := s.v.set r.val b }

/-! ### Memory (spec/20_memory.md) -/

/-- What an unlisted address reads as: memory is all zero after reset (R36, R59; log 7: DEDUCED, safe). -/
def Memory.unlisted : Byte := 0

/-- `MemRead(a, 1)` (R8, R53). -/
def Memory.read : List Host.Cell → Nat → Byte
  | [], _ => Memory.unlisted
  | (k, b) :: rest, a => if k = a then b else Memory.read rest a

/-- Write of one byte, keeping the canonical form.  No instruction uses it (R52): it is the host's
write (R146). -/
def Memory.write : List Host.Cell → Nat → Byte → List Host.Cell
  | [], a, b => if b = Memory.unlisted then [] else [(a, b)]
  | (k, c) :: rest, a, b =>
    if a < k then
      if b = Memory.unlisted then (k, c) :: rest else (a, b) :: (k, c) :: rest
    else if a = k then
      if b = Memory.unlisted then rest else (a, b) :: rest
    else (k, c) :: Memory.write rest a b

/-- Successive bytes from an address up; a byte that would lie outside memory (R50) is not
written. -/
def Memory.writeBytes : List Host.Cell → Nat → List Byte → List Host.Cell
  | m, _, [] => m
  | m, a, b :: bs =>
    Memory.writeBytes (if a < Config.memSize then Memory.write m a b else m) (a + 1) bs

/-- The canonical form from the address `lo` up: addresses rising and inside memory (R50), no entry
equal to what an unlisted address reads as. -/
def Memory.wfFrom : Nat → List Host.Cell → Bool
  | _, [] => true
  | lo, (k, b) :: rest =>
    decide (lo ≤ k) && decide (k < Config.memSize) && decide (b ≠ Memory.unlisted)
      && Memory.wfFrom (k + 1) rest

/-- The canonical form of memory, in which equal memories are equal lists. -/
def Memory.wf (m : List Host.Cell) : Bool := Memory.wfFrom 0 m

/-- The byte at an address. -/
def State.read (s : State) (a : Nat) : Byte := Memory.read s.mem a

/-- The host's write of one byte (R146). -/
def State.writeMem (s : State) (a : Nat) (b : Byte) : State :=
  { s with mem := Memory.write s.mem a b }

/-! ### Program counter -/

/-- Write of `pc`. -/
def State.setPc (s : State) (t : Word) : State := { s with pc := t }

/-- The program-counter adder: its only operation is `+ 2` (R92). -/
def State.advancePc (s : State) : State := s.setPc (s.pc + 2)

/-- The fetch (R91): `none` when `pc + 1` is no valid address, compared without wrap-around;
otherwise the big-endian word of the two bytes.  No alignment is asked (R28, R55). -/
def State.fetchWord (s : State) : Option Word :=
  if s.pc.toNat + 1 < Config.memSize then
    some (be16 (s.read s.pc.toNat) (s.read (s.pc.toNat + 1)))
  else none

/-! ### Call stack (spec/42_control_flow.md R132: a push and pop contract) -/

/-- Read of `stack[k]`: a register file of its own, with no address in memory (R30). -/
def State.stackAt (s : State) (k : Fin 16) : Word := s.stack[k.val]

/-- Push: `none` when the stack is full, `sp >= 16` (R131, R132). -/
def State.push (s : State) (w : Word) : Option State :=
  if h : s.sp.val < Config.stackDepth then
    some { s with stack := s.stack.set s.sp.val w h, sp := ⟨s.sp.val + 1, Nat.succ_lt_succ h⟩ }
  else none

/-- Pop: `none` when the stack is empty; otherwise the entry at the decremented pointer, which the
slot keeps (R32, R133). -/
def State.pop (s : State) : Option (Word × State) :=
  if h : s.sp.val = 0 then none
  else
    some (s.stack[s.sp.val - 1]'(by have := s.sp.isLt; omega),
      { s with sp := ⟨s.sp.val - 1, by have := s.sp.isLt; omega⟩ })

/-! ### Status, and raising a fault (spec/60_exceptions.md R165) -/

/-- `status.state <- r`, the cause as it is (R140, R141). -/
def State.setRunState (s : State) (r : RunState) : State :=
  { s with status := { s.status with state := r } }

/-- The state a raised fault leaves: `status` says which, and all else is frozen (R165, R168; log 1:
UNVERIFIED, unsafe). -/
def State.faulted (s : State) (c : Fault) : State := { s with status := ⟨.faulted, some c⟩ }

/-- `raise <Fault>` (R165): the step ends in the frozen state; nothing is saved and control goes
nowhere. -/
def raise (c : Fault) (s : State) : Host.Outcome State Fault Refusal := .next (s.faulted c)

/-- What a core that is not `Running` does with a step: nothing (spec/40 R95). -/
def stopped (s : State) : Host.Outcome State Fault Refusal := .next s

/-- The bytes of an instruction at `pc`, and the core `Running`: what a load and a `run` request do
to bring the core to its next fetch (R142, R195; log 3: DESIGN CHOICE, safe). -/
def State.placeInstr (s : State) (bytes : List Byte) : State :=
  { s with mem := Memory.writeBytes s.mem s.pc.toNat bytes, status := ⟨.running, none⟩ }

end Sys2Proof.Machine
end

