-- ==== Sys2Proof/Machine/Operands.lean ====
section
/-! DEFINITION. The operand forms: two register indices (the ALU family) and the 12-bit address
(CALL), and the order in which an ALU instruction writes (spec/41_alu.md R110). -/

namespace Sys2Proof.Machine

/-- CALL's operand, zero-extended to the width of `pc`: an absolute byte address (R73). -/
def callTarget (nnn : Addr) : Word := nnn.setWidth 16

/-- The write of `VF`, where there is one. -/
def State.writeFlag (s : State) : Option Byte → State
  | none => s
  | some f => s.setV Config.flagReg f

/-- The write of `V[x]`, where there is one. -/
def State.writeResult (s : State) (x : Reg) : Option Byte → State
  | none => s
  | some b => s.setV x b

/-- `VF` first, `V[x]` second, so with `x` = 15 the result, where there is one, is what `V[15]`
holds afterwards (R110, decision D7; log 9: UNVERIFIED, unsafe). -/
def State.writeBack (s : State) (x : Reg) (o : AluOut) : State :=
  (s.writeFlag o.flag).writeResult x o.result

/-- An instruction of two register operands: both are read before either write (R8, R110). -/
def binaryAlu (f : Byte → Byte → AluOut) (x y : Reg) (s : State) :
    Host.Outcome State Fault Refusal :=
  .next (s.writeBack x (f (s.getV x) (s.getV y)))

/-- An instruction of one register operand: the shifts (R78). -/
def unaryAlu (f : Byte → AluOut) (x : Reg) (s : State) : Host.Outcome State Fault Refusal :=
  .next (s.writeBack x (f (s.getV x)))

end Sys2Proof.Machine
end

