-- ==== Sys2Proof/Machine/Alu.lean ====
section
/-! DEFINITION. The meanings of the nine ALU instructions (spec/41_alu.md), at the execute point:
`pc` is already past the word (R90), and none of them touches `pc`, `mem`, `stack`, `sp` or
`status` or can raise a fault (R122). -/

namespace Sys2Proof.Machine

/-- MOV, R111. -/
def execMov (x y : Reg) (s : State) : Host.Outcome State Fault Refusal := binaryAlu Alu.mov x y s

/-- OR, R112. -/
def execOr (x y : Reg) (s : State) : Host.Outcome State Fault Refusal := binaryAlu Alu.or x y s

/-- AND, R113. -/
def execAnd (x y : Reg) (s : State) : Host.Outcome State Fault Refusal := binaryAlu Alu.and x y s

/-- XOR, R114. -/
def execXor (x y : Reg) (s : State) : Host.Outcome State Fault Refusal := binaryAlu Alu.xor x y s

/-- ADD, R115. -/
def execAdd (x y : Reg) (s : State) : Host.Outcome State Fault Refusal := binaryAlu Alu.add x y s

/-- SUB, R116. -/
def execSub (x y : Reg) (s : State) : Host.Outcome State Fault Refusal := binaryAlu Alu.sub x y s

/-- SHR, R117; `y` is neither read nor written (R78). -/
def execShr (x _ : Reg) (s : State) : Host.Outcome State Fault Refusal := unaryAlu Alu.shr x s

/-- RSUB, R118. -/
def execRsub (x y : Reg) (s : State) : Host.Outcome State Fault Refusal := binaryAlu Alu.rsub x y s

/-- SHL, R119; `y` is neither read nor written (R78). -/
def execShl (x _ : Reg) (s : State) : Host.Outcome State Fault Refusal := unaryAlu Alu.shl x s

end Sys2Proof.Machine
end

