-- ==== Sys2Proof/Machine/Control.lean ====
section
/-! DEFINITION. The meanings of CALL and RET (spec/42_control_flow.md), at the execute point: `pc`
is already past the word.  Targets are not checked here but by the next fetch (R136). -/

namespace Sys2Proof.Machine

/-- CALL, R131: StackOverflow when the stack is full; otherwise the return address is pushed and
`pc` becomes `nnn`. -/
def execCall (nnn : Addr) (s : State) : Host.Outcome State Fault Refusal :=
  match s.push s.pc with
  | none => raise .stackOverflow s
  | some t => .next (t.setPc (callTarget nnn))

/-- RET, R133: StackUnderflow when the stack is empty; otherwise `pc` becomes the popped entry. -/
def execRet (s : State) : Host.Outcome State Fault Refusal :=
  match s.pop with
  | none => raise .stackUnderflow s
  | some (w, t) => .next (t.setPc w)

end Sys2Proof.Machine
end

