-- ==== Sys2Proof/Machine/System.lean ====
section
/-! DEFINITION. The meaning of HALT (spec/43_halt_run_host.md R140), the one system instruction
(R148). -/

namespace Sys2Proof.Machine

/-- HALT, R140: `status.state <- Halted`; nothing else is written. -/
def execHalt (s : State) : Host.Outcome State Fault Refusal := .next (s.setRunState .halted)

end Sys2Proof.Machine
end

