-- ==== Sys2Proof/Machine/Step.lean ====
section
/-! DEFINITION. One step of the hardware (spec/40_fetch_decode_dispatch.md R90). -/

namespace Sys2Proof.Machine

/-- Fetch, advance, decode, dispatch, execute (R90), while `status.state` is `Running`; otherwise
no step is taken and no state changes (R95).  The advance comes before dispatch for every word, HALT
and unimplemented words included (R92, decision D4; log 10: UNVERIFIED, unsafe). -/
def step (s : State) : Host.Outcome State Fault Refusal :=
  match s.status.state with
  | .running =>
    match s.fetchWord with
    | none => raise .outOfBounds s
    | some op =>
      match decodeWord op with
      | .ok i => exec i s.advancePc
      | .error _ => raise .unimplementedOpcode s.advancePc
  | .idle => stopped s
  | .halted => stopped s
  | .faulted => stopped s

/-- `s` with the instruction of those bits at `pc` and the core `Running`, so that the very next
step fetches and runs it (log 3: DESIGN CHOICE, safe).  Where `pc` > 4094 no instruction can be fetched (R91): the
bytes that would lie outside memory are then not stored. -/
def State.withFetchWord (s : State) (nbits w : Nat) : State := s.placeInstr (tableBytes nbits w)

end Sys2Proof.Machine
end

