-- ==== Sys2Proof/Machine/HostPort.lean ====
section
/-! DEFINITION. The interface to the host (spec/43_halt_run_host.md R141 to R147): the four abstract
ports of R145.  The host acts between steps, never inside one (R10, R192), so each request is one
atomic change of the state, separate from `step` (log 6: DESIGN CHOICE, unsafe only
against a host that breaks its duties). -/

namespace Sys2Proof.Machine

/-- What the host may ask of the core: the ports `reset` and `run`, and the writes of the host
access port (R145, R146).  There is none for `stack`, `sp` or `status`. -/
inductive HostRequest where
  | reset
  | run
  | writeMem (a : Addr) (b : Byte)
  | writeV (r : Reg) (b : Byte)
  | writePc (t : Word)
  deriving DecidableEq, Repr

/-- The host may write only between runs: in `Idle` and `Halted` (R146). -/
def State.hostMayWrite (s : State) : Bool :=
  match s.status.state with
  | .idle => true
  | .halted => true
  | .running => false
  | .faulted => false

/-- Reset (R190, R192): in every state, to the state of R36. -/
def resetRequest (_ : State) : State := State.reset

/-- The `run` request (R141, R142): from `Idle` and `Halted` to `Running`, nothing else; ignored in
`Running` and `Faulted` (R143). -/
def runRequest (s : State) : State :=
  if s.hostMayWrite then s.setRunState .running else s

/-- What a request does; `none` where the host has no such move (R146). -/
def serve (q : HostRequest) (s : State) : Option State :=
  match q with
  | .reset => some (resetRequest s)
  | .run => some (runRequest s)
  | .writeMem a b => if s.hostMayWrite then some (s.writeMem a.toNat b) else none
  | .writeV r b => if s.hostMayWrite then some (s.setV r b) else none
  | .writePc t => if s.hostMayWrite then some (s.setPc t) else none

/-- The host reads every element of state while no run is in progress (R146); reading changes
nothing. -/
def inspect (s : State) : Option State :=
  match s.status.state with
  | .running => none
  | .idle => some s
  | .halted => some s
  | .faulted => some s

/-- The code of `status.state` (R33). -/
def RunState.code : RunState → BitVec 2
  | .idle => 0
  | .running => 1
  | .halted => 2
  | .faulted => 3

/-- The code of `status.cause` (R33, R160). -/
def causeCode : Option Fault → BitVec 3
  | none => 0
  | some .stackOverflow => 1
  | some .stackUnderflow => 2
  | some .outOfBounds => 3
  | some .unimplementedOpcode => 4

/-- The port `status`: the register's 5 bits, `state` in bits 1 to 0 and `cause` in bits 4 to 2
(R33, R145). -/
def Status.bits (t : Status) : BitVec 5 := causeCode t.cause ++ t.state.code

/-- The stack pointer as the 5-bit register it is (R31). -/
def State.spBits (s : State) : BitVec 5 := BitVec.ofNat 5 s.sp.val

end Sys2Proof.Machine
end

