-- ==== Sys2Proof/Safety.lean ====
section
/-! DEFINITION. What the statements speak of: what a step is about to run, runs of many steps, the
invariant of the machine, the states it can reach, and frames. -/

namespace Sys2Proof

/-- The nine ALU instructions (R72, format `R`). -/
def Instr.isAlu : Instr → Bool
  | .halt => false
  | .ret => false
  | .call _ => false
  | .mov _ _ => true
  | .or _ _ => true
  | .and _ _ => true
  | .xor _ _ => true
  | .add _ _ => true
  | .sub _ _ => true
  | .shr _ _ => true
  | .rsub _ _ => true
  | .shl _ _ => true

/-- The destination register, the field `x` of an ALU instruction (R71). -/
def Instr.dest : Instr → Option Reg
  | .halt => none
  | .ret => none
  | .call _ => none
  | .mov x _ => some x
  | .or x _ => some x
  | .and x _ => some x
  | .xor x _ => some x
  | .add x _ => some x
  | .sub x _ => some x
  | .shr x _ => some x
  | .rsub x _ => some x
  | .shl x _ => some x

/-- The five instructions that write `VF` as the flag (R24). -/
def Instr.writesFlag : Instr → Bool
  | .halt => false
  | .ret => false
  | .call _ => false
  | .mov _ _ => false
  | .or _ _ => false
  | .and _ _ => false
  | .xor _ _ => false
  | .add _ _ => true
  | .sub _ _ => true
  | .shr _ _ => true
  | .rsub _ _ => true
  | .shl _ _ => true

end Sys2Proof

namespace Sys2Proof.Machine

/-- The core is `Running` and its next step fetches the word of `i` (R90). -/
def Fetches (s : State) (i : Instr) : Prop :=
  s.status.state = .running ∧ ∃ w, s.fetchWord = some w ∧ decodeWord w = .ok i

/-- `k` steps (R97).  A core that is not `Running` stays as it is (R95), so a run that has ended
within `k` steps shows its final state. -/
def runFor : Nat → State → Host.Outcome State Fault Refusal
  | 0, s => .next s
  | k + 1, s =>
    match step s with
    | .next t => runFor k t
    | .fault r => .fault r
    | .refused r => .refused r

/-! ### Frames -/

/-- Every byte of memory reads as before, and memory is the same list. -/
def SameMem (s t : State) : Prop := t.mem = s.mem ∧ ∀ a, t.read a = s.read a

/-- Every general register is as before. -/
def SameV (s t : State) : Prop := ∀ r : Reg, t.getV r = s.getV r

/-- Every general register outside the list is as before. -/
def SameVBut (rs : List Reg) (s t : State) : Prop := ∀ r : Reg, r ∉ rs → t.getV r = s.getV r

/-- The call stack and the stack pointer are as before. -/
def SameStack (s t : State) : Prop := t.stack = s.stack ∧ t.sp = s.sp

/-- All but the general registers is as before. -/
def OnlyV (s t : State) : Prop :=
  SameMem s t ∧ t.pc = s.pc ∧ SameStack s t ∧ t.status = s.status

/-- The run has ended in the fault `c` and `status` is all that the raise has changed (R165). -/
def FaultedIn (c : Fault) (s t : State) : Prop :=
  t.status = ⟨.faulted, some c⟩ ∧ SameV s t ∧ SameMem s t ∧ SameStack s t ∧ t.pc = s.pc

/-! ### The invariant -/

/-- `status.cause` is non-zero exactly when `status.state` = `Faulted` (R33). -/
def StatusConsistent (s : State) : Prop :=
  s.status.cause.isSome = true ↔ s.status.state = .faulted

/-- The live entries of the call stack, `stack[0]` to `stack[sp - 1]`, hold return addresses a CALL
can have saved: 2 to 4096 (R27, R31, R131). -/
def LiveEntriesInRange (s : State) : Prop :=
  ∀ k : Fin 16, k.val < s.sp.val → 2 ≤ (s.stackAt k).toNat ∧ (s.stackAt k).toNat ≤ 4096

/-- What every reachable state satisfies. -/
structure MachineInv (s : State) : Prop where
  memWf : Memory.wf s.mem = true
  statusConsistent : StatusConsistent s
  liveEntries : LiveEntriesInRange s

/-- The states the machine can reach: from reset, by steps and by what the host may do between
them (R146, R195). -/
inductive Reachable : State → Prop where
  | reset : Reachable State.reset
  | step {s t : State} : Reachable s → step s = .next t → Reachable t
  | host {s t : State} (q : HostRequest) : Reachable s → serve q s = some t → Reachable t

end Sys2Proof.Machine
end

