-- ==== Sys2Proof/Certificates/Slice0/Obligations.lean ====
section
/-! DEFINITION. The statements about the model, for the provers.  Each docstring names the rules of
spec/ it formalises.  Where a clause rests on a decision the spec marks as its own (`[decision: see
92_eei_decisions.md D<n>]`), the docstring names the decision and the log entry. -/

open Sys2Proof Sys2Proof.Machine

/-! ### Reset -/

/-- R191: the state after reset does not depend on the state before it, it is zeroed, and a second
reset yields the same state. -/
def Obligations.ResetForgetsTheStateBefore : Prop :=
  ∀ s : State, serve .reset s = some State.reset ∧
    (∀ t, serve .reset s = some t → serve .reset t = some t ∧
      (∀ r, t.getV r = 0) ∧ (∀ a, t.read a = 0) ∧ (∀ k, t.stackAt k = 0) ∧
      t.sp.val = 0 ∧ t.pc = 0)

/-- R36, R190, R193: at power-on every element holds the value the table of R36 gives it.  (`pc` = 0 is
decision D3, `status` decision D10, that power-on equals reset decision D13.) -/
def Obligations.PowerOnStateIsZeroAndIdle : Prop :=
  core.reset = State.reset ∧ (∀ r, State.reset.getV r = 0) ∧ (∀ a, State.reset.read a = 0) ∧
    (∀ k, State.reset.stackAt k = 0) ∧ State.reset.sp.val = 0 ∧ State.reset.pc = 0 ∧
    State.reset.status = ⟨.idle, none⟩

/-- The last sentence of R36, and vector X1: `run` straight after reset fetches 0x0000 at address 0
and halts at once with `pc` = 2.  (`pc` = 2 is decision D4, log 10.) -/
def Obligations.UnloadedMachineHaltsAtOnce : Prop :=
  ∃ t u, serve .run State.reset = some t ∧ step t = .next u ∧
    u.status = ⟨.halted, none⟩ ∧ u.pc = 2 ∧ SameV State.reset u ∧ SameMem State.reset u ∧
    SameStack State.reset u

/-! ### Encoding -/

/-- Decode and encode agree: the bytes of every well-formed instruction, with any bytes after
them, decode to that instruction and leave the rest. -/
def Obligations.DecodeOfEncodeIsTheInstruction : Prop :=
  ∀ (i : Instr) (rest : List Byte), i.wellFormed = true →
    decode (encodeBytes i ++ rest) = .ok (i, rest) ∧ decodeWord (encode i) = .ok i

/-- The other direction: a word that decodes is the word of the instruction it decodes to, so no
two words share an instruction and no bit is dropped. -/
def Obligations.EncodeOfDecodeIsTheWord : Prop :=
  ∀ (w : Word) (i : Instr), decodeWord w = .ok i → encode i = w

/-- R76: the instruction list has twelve rows, `match` and `mask` select the instruction, and a
word that decodes is covered by its own row and by no other. -/
def Obligations.MatchAndMaskSelectTheInstruction : Prop :=
  opcodeTable.length = 12 ∧
  (∀ w : Word, (∃ r ∈ opcodeTable, w &&& r.mask = r.pattern) → ∃ i, decodeWord w = .ok i) ∧
  (∀ (w : Word) (i : Instr), decodeWord w = .ok i →
    i.row ∈ opcodeTable ∧ ∀ r ∈ opcodeTable, w &&& r.mask = r.pattern ↔ r = i.row)

/-- R74 with the fields of R71, on the word as a number: the opcode map, case by case; the cases
exclude each other, so their order does not matter. -/
def Obligations.DispatchFollowsTheOpcodeMap : Prop :=
  ∀ w : Word,
    (w.toNat = 0 → decodeWord w = .ok .halt) ∧
    (w.toNat = 0xEE → decodeWord w = .ok .ret) ∧
    (w.toNat / 4096 = 2 → ∀ a : Addr, a.toNat = w.toNat % 4096 → decodeWord w = .ok (.call a)) ∧
    (w.toNat / 4096 = 8 → ∀ x y : Reg, x.val = w.toNat / 256 % 16 → y.val = w.toNat / 16 % 16 →
      (w.toNat % 16 = 0 → decodeWord w = .ok (.mov x y)) ∧
      (w.toNat % 16 = 1 → decodeWord w = .ok (.or x y)) ∧
      (w.toNat % 16 = 2 → decodeWord w = .ok (.and x y)) ∧
      (w.toNat % 16 = 3 → decodeWord w = .ok (.xor x y)) ∧
      (w.toNat % 16 = 4 → decodeWord w = .ok (.add x y)) ∧
      (w.toNat % 16 = 5 → decodeWord w = .ok (.sub x y)) ∧
      (w.toNat % 16 = 6 → decodeWord w = .ok (.shr x y)) ∧
      (w.toNat % 16 = 7 → decodeWord w = .ok (.rsub x y)) ∧
      (w.toNat % 16 = 14 → decodeWord w = .ok (.shl x y)) ∧
      (w.toNat % 16 ∉ [0, 1, 2, 3, 4, 5, 6, 7, 14] →
        decodeWord w = .error .unimplementedOpcode)) ∧
    (w.toNat ≠ 0 → w.toNat ≠ 0xEE → w.toNat / 4096 ≠ 2 → w.toNat / 4096 ≠ 8 →
      decodeWord w = .error .unimplementedOpcode)

/-- Vectors E1, E2, E3, E8, E12, E13, E14, E15, E16, E17 of 95_test_vectors.md. -/
def Obligations.WordsOfTheSpecDecode : Prop :=
  decodeTableWord 16 0x0000 = some .halt ∧ decodeTableWord 16 0x00EE = some .ret ∧
  decodeTableWord 16 0x00E0 = none ∧ decodeTableWord 16 0x2ABC = some (.call 0xABC) ∧
  decodeTableWord 16 0x8AB0 = some (.mov 0xA 0xB) ∧ decodeTableWord 16 0x8124 = some (.add 1 2) ∧
  decodeTableWord 16 0x8F06 = some (.shr 15 0) ∧ decodeTableWord 16 0x812E = some (.shl 1 2) ∧
  decodeTableWord 16 0x8128 = none ∧ decodeTableWord 16 0x812F = none

/-! ### Fetch and step -/

/-- R54, R91: the fetch at any `pc` that leaves both bytes inside memory succeeds and combines the
two bytes most significant first.  That an odd `pc` is fetched like an even one is decision D5 (R28,
R55; log 12: UNVERIFIED). -/
def Obligations.FetchIsBigEndian : Prop :=
  ∀ s : State, s.pc.toNat ≤ 4094 → ∃ w : Word, s.fetchWord = some w ∧
    w.toNat = 256 * (s.read s.pc.toNat).toNat + (s.read (s.pc.toNat + 1)).toNat ∧
    w.extractLsb' 8 8 = s.read s.pc.toNat ∧ w.extractLsb' 0 8 = s.read (s.pc.toNat + 1)

/-- R90, R92, R94: where the two bytes at `pc` decode to a well-formed instruction, a step of a
running core is that instruction's meaning on the state whose `pc` has been advanced by 2, without
wrapping, and in which nothing else has changed. -/
def Obligations.StepRunsTheDecodedInstruction : Prop :=
  ∀ (s : State) (i : Instr) (rest : List Byte), s.status.state = .running →
    s.pc.toNat ≤ 4094 → i.wellFormed = true →
    decode [s.read s.pc.toNat, s.read (s.pc.toNat + 1)] = .ok (i, rest) →
    ∃ u, step s = exec i u ∧ u.pc.toNat = s.pc.toNat + 2 ∧ u = { s with pc := u.pc }

/-- The model's own operation (log 3): placing the word of an instruction makes the very next step
run it.  Rests on R142 and R195 only in that the core is then `Running` with that word at `pc`. -/
def Obligations.PlacedInstructionRunsNext : Prop :=
  ∀ (s : State) (i : Instr), Memory.wf s.mem = true → s.pc.toNat ≤ 4094 →
    Fetches (s.withFetchWord 16 (encode i).toNat) i ∧
    step (s.withFetchWord 16 (encode i).toNat)
      = exec i (s.withFetchWord 16 (encode i).toNat).advancePc

/-- R164: a fetched word that is none of the twelve instructions raises UnimplementedOpcode, with
`pc` past the word and nothing else but `status` changed.  (R169 advises claims to lean on `status`
only; the other values are those R164 and R168 give, log 1.) -/
def Obligations.UnlistedWordRaisesUnimplementedOpcode : Prop :=
  ∀ (s : State) (w : Word), s.status.state = .running → s.fetchWord = some w →
    (∀ r ∈ opcodeTable, w &&& r.mask ≠ r.pattern) →
    ∃ t, step s = .next t ∧ FaultedIn .unimplementedOpcode s.advancePc t ∧
      t.pc.toNat = s.pc.toNat + 2

/-- R90, R163: a step that begins with `pc` > 4094 raises OutOfBounds, with `pc` unchanged.  That the
comparison does not wrap is decision D6 (R91, log 12); that `V`, memory, the stack and `sp` are also
unchanged is R168's freeze, decision D11 (log 1), and R169 advises claims to lean on `status` only. -/
def Obligations.FetchBeyondMemoryRaisesOutOfBounds : Prop :=
  ∀ s : State, s.status.state = .running → 4094 < s.pc.toNat →
    ∃ t, step s = .next t ∧ FaultedIn .outOfBounds s t

/-- R95 (decisions D10 and D12): in `Idle`, `Halted` and `Faulted` the core takes no step and
changes no state. -/
def Obligations.StoppedCoreChangesNothing : Prop :=
  ∀ s : State, s.status.state ≠ .running → step s = .next s ∧ ∀ k, runFor k s = .next s

/-- The model's own choice, log 4 (DESIGN CHOICE): a raised fault, whose entry R165 describes, is a
next state, and the outcomes fault and refused are never answered.  So `step` is total: no state and
no word makes it stop. -/
def Obligations.EveryStepAnswersANextState : Prop :=
  ∀ s : State, ∃ t, step s = .next t

/-- R96: a step of a running core has exactly one of three outcomes. -/
def Obligations.StepHasExactlyThreeOutcomes : Prop :=
  ∀ s : State, s.status.state = .running → s.status.cause = none →
    ∃ t, step s = .next t ∧
      ((t.status = ⟨.running, none⟩ ∧
          ∃ i, Fetches s i ∧ (i.isAlu = true ∨ i = .ret ∨ ∃ a, i = .call a)) ∨
       (t.status = ⟨.halted, none⟩ ∧ s.fetchWord = some 0) ∨
       (∃ c, t.status = ⟨.faulted, some c⟩))

/-- R160, R167 (the codes are decision D10): each of the four faults is raised by its own condition
and by nothing else. -/
def Obligations.FaultsArisePreciselyFromTheirConditions : Prop :=
  ∀ s t : State, s.status.state = .running → s.status.cause = none → step s = .next t →
    (t.status.cause = some .stackOverflow ↔ s.sp.val = 16 ∧ ∃ a, Fetches s (.call a)) ∧
    (t.status.cause = some .stackUnderflow ↔ s.sp.val = 0 ∧ Fetches s .ret) ∧
    (t.status.cause = some .outOfBounds ↔ 4094 < s.pc.toNat) ∧
    (t.status.cause = some .unimplementedOpcode ↔
      ∃ w, s.fetchWord = some w ∧ ∀ r ∈ opcodeTable, w &&& r.mask ≠ r.pattern)

/-- R26 (HALT's and the faults' values are decisions D4 and D11): how each instruction leaves `pc`,
from the address its word was fetched from. -/
def Obligations.StepLeavesPcAsTheTableSays : Prop :=
  ∀ (s t : State) (i : Instr), Fetches s i → step s = .next t →
    (i.isAlu = true ∨ i = .halt → t.pc.toNat = s.pc.toNat + 2) ∧
    (∀ a, i = .call a → s.sp.val < 16 → t.pc.toNat = a.toNat) ∧
    (∀ a, i = .call a → s.sp.val = 16 → t.pc.toNat = s.pc.toNat + 2) ∧
    (i = .ret → ∀ k : Fin 16, s.sp.val = k.val + 1 → t.pc = s.stackAt k) ∧
    (i = .ret → s.sp.val = 0 → t.pc.toNat = s.pc.toNat + 2)

/-! ### The ALU instructions -/

/-- R111. -/
def Obligations.MovCopiesY : Prop :=
  ∀ (x y : Reg) (s : State), ∃ t, exec (.mov x y) s = .next t ∧
    t.getV x = s.getV y ∧ SameVBut [x] s t ∧ OnlyV s t

/-- R112. -/
def Obligations.OrWritesBitwiseOr : Prop :=
  ∀ (x y : Reg) (s : State), ∃ t, exec (.or x y) s = .next t ∧
    t.getV x = s.getV x ||| s.getV y ∧ SameVBut [x] s t ∧ OnlyV s t

/-- R113. -/
def Obligations.AndWritesBitwiseAnd : Prop :=
  ∀ (x y : Reg) (s : State), ∃ t, exec (.and x y) s = .next t ∧
    t.getV x = s.getV x &&& s.getV y ∧ SameVBut [x] s t ∧ OnlyV s t

/-- R114. -/
def Obligations.XorWritesBitwiseExclusiveOr : Prop :=
  ∀ (x y : Reg) (s : State), ∃ t, exec (.xor x y) s = .next t ∧
    t.getV x = s.getV x ^^^ s.getV y ∧ SameVBut [x] s t ∧ OnlyV s t

/-- R115: with no carry the exact sum is stored and `VF` is 0; with a carry `VF` is 1 and `V[x]` is
not stored.  The clause for `x` = 15 is decision D7 (log 9); that the sum is not stored on carry is
decision D9. -/
def Obligations.AddStoresTheSumUnlessItCarries : Prop :=
  ∀ (x y : Reg) (s : State), ∃ t, exec (.add x y) s = .next t ∧ SameVBut [x, 15] s t ∧ OnlyV s t ∧
    (if (s.getV x).toNat + (s.getV y).toNat ≤ 255 then
      (t.getV x).toNat = (s.getV x).toNat + (s.getV y).toNat ∧ (x ≠ 15 → t.getV 15 = 0)
    else t.getV 15 = 1 ∧ (x ≠ 15 → t.getV x = s.getV x))

/-- R116: with no borrow the exact difference is stored and `VF` is 1; with a borrow `VF` is 0 and
`V[x]` is not stored.  The clause for `x` = 15 is decision D7 (log 9). -/
def Obligations.SubStoresTheDifferenceUnlessItBorrows : Prop :=
  ∀ (x y : Reg) (s : State), ∃ t, exec (.sub x y) s = .next t ∧ SameVBut [x, 15] s t ∧ OnlyV s t ∧
    (if (s.getV y).toNat ≤ (s.getV x).toNat then
      (t.getV x).toNat = (s.getV x).toNat - (s.getV y).toNat ∧ (x ≠ 15 → t.getV 15 = 1)
    else t.getV 15 = 0 ∧ (x ≠ 15 → t.getV x = s.getV x))

/-- R118: as SUB with the operands exchanged, the destination still `V[x]`.  The clause for `x` = 15
is decision D7 (log 9). -/
def Obligations.RsubStoresTheReverseDifferenceUnlessItBorrows : Prop :=
  ∀ (x y : Reg) (s : State), ∃ t, exec (.rsub x y) s = .next t ∧ SameVBut [x, 15] s t ∧ OnlyV s t ∧
    (if (s.getV x).toNat ≤ (s.getV y).toNat then
      (t.getV x).toNat = (s.getV y).toNat - (s.getV x).toNat ∧ (x ≠ 15 → t.getV 15 = 1)
    else t.getV 15 = 0 ∧ (x ≠ 15 → t.getV x = s.getV x))

/-- R117, R78: a logical shift right by one, `VF` the old bit 0; no value of `y` matters.  The clause
for `x` = 15 is decision D7 (log 9), that `y` is ignored decision D16. -/
def Obligations.ShrHalvesAndFlagsBitZero : Prop :=
  ∀ (x y : Reg) (s : State), ∃ t, exec (.shr x y) s = .next t ∧ SameVBut [x, 15] s t ∧ OnlyV s t ∧
    (t.getV x).toNat = (s.getV x).toNat / 2 ∧
    (x ≠ 15 → (t.getV 15).toNat = (s.getV x).toNat % 2)

/-- R119, R78: a shift left by one, truncated to 8 bits, `VF` the old bit 0, not bit 7 (decision D8);
no value of `y` matters (decision D16).  The clause for `x` = 15 is decision D7 (log 9). -/
def Obligations.ShlDoublesAndFlagsBitZero : Prop :=
  ∀ (x y : Reg) (s : State), ∃ t, exec (.shl x y) s = .next t ∧ SameVBut [x, 15] s t ∧ OnlyV s t ∧
    (t.getV x).toNat = 2 * (s.getV x).toNat % 256 ∧
    (x ≠ 15 → (t.getV 15).toNat = (s.getV x).toNat % 2)

/-- R78 on words (decision D16): two words that differ only in bits 7 to 4 and whose minor opcode is
a shift's act alike. -/
def Obligations.ShiftsIgnoreTheFieldY : Prop :=
  ∀ (s : State) (w w' : Word) (i i' : Instr), decodeWord w = .ok i → decodeWord w' = .ok i' →
    w.toNat / 4096 = 8 → w.toNat % 16 = 6 ∨ w.toNat % 16 = 14 →
    w &&& 0xFF0F#16 = w' &&& 0xFF0F#16 → exec i s = exec i' s

/-- R24: as a flag, `VF` only ever receives 0 or 1. -/
def Obligations.FlagIsZeroOrOne : Prop :=
  ∀ (i : Instr) (x : Reg) (s t : State), i.dest = some x → x ≠ 15 → i.writesFlag = true →
    exec i s = .next t → t.getV 15 = 0 ∨ t.getV 15 = 1

/-- R122: no ALU instruction can raise a fault; a word of major opcode 8 can raise only
UnimplementedOpcode, for the minor opcodes 8, 9, 0xA, 0xB, 0xC, 0xD and 0xF, and then no register is
changed. -/
def Obligations.AluWordsRaiseNoOtherFault : Prop :=
  (∀ (i : Instr) (s : State), i.isAlu = true →
    ∃ t, exec i s = .next t ∧ t.status = s.status) ∧
  (∀ (s : State) (w : Word), s.status.state = .running → s.fetchWord = some w →
    w.toNat / 4096 = 8 → ∃ t, step s = .next t ∧
      (if w.toNat % 16 ∈ [8, 9, 0xA, 0xB, 0xC, 0xD, 0xF] then
        t.status = ⟨.faulted, some .unimplementedOpcode⟩ ∧ SameV s t
      else t.status = s.status))

/-! ### CALL, RET and HALT -/

/-- R131: below sixteen live entries CALL pushes the advanced `pc`, raises `sp` by one and goes to
the zero-extended operand; with the stack full it raises StackOverflow and does nothing else.  No
general register, and no byte of memory, is written. -/
def Obligations.CallPushesAndJumpsUnlessTheStackIsFull : Prop :=
  ∀ (nnn : Addr) (s : State),
    (∀ k : Fin 16, s.sp.val = k.val → ∃ t, exec (.call nnn) s = .next t ∧
      t.stackAt k = s.pc ∧ (∀ j, j ≠ k → t.stackAt j = s.stackAt j) ∧
      t.sp.val = s.sp.val + 1 ∧ t.pc.toNat = nnn.toNat ∧
      SameV s t ∧ SameMem s t ∧ t.status = s.status) ∧
    (s.sp.val = 16 → ∃ t, exec (.call nnn) s = .next t ∧ FaultedIn .stackOverflow s t)

/-- R133, R32: with a live entry RET lowers `sp` by one and goes to the entry at the new `sp`, which
the slot keeps (decision D15, log 12); on the empty stack it raises StackUnderflow and does nothing
else.  No general register, and no byte of memory, is written. -/
def Obligations.RetPopsUnlessTheStackIsEmpty : Prop :=
  ∀ s : State,
    (∀ k : Fin 16, s.sp.val = k.val + 1 → ∃ t, exec .ret s = .next t ∧
      t.sp.val = k.val ∧ t.pc = s.stackAt k ∧ (∀ j, t.stackAt j = s.stackAt j) ∧
      SameV s t ∧ SameMem s t ∧ t.status = s.status) ∧
    (s.sp.val = 0 → ∃ t, exec .ret s = .next t ∧ FaultedIn .stackUnderflow s t)

/-- R140: HALT sets `status.state` to `Halted` and writes nothing else; in a step `pc` ends at the
address after the halt word (decision D4, log 10). -/
def Obligations.HaltOnlyEndsTheRun : Prop :=
  (∀ s : State, ∃ t, exec .halt s = .next t ∧
    t.status = ⟨.halted, s.status.cause⟩ ∧ SameV s t ∧ SameMem s t ∧ SameStack s t ∧
    t.pc = s.pc) ∧
  (∀ s : State, s.status.state = .running → s.fetchWord = some 0 →
    ∃ t, step s = .next t ∧ t.status = ⟨.halted, s.status.cause⟩ ∧
      t.pc.toNat = s.pc.toNat + 2 ∧ SameV s t ∧ SameMem s t ∧ SameStack s t)

/-- R161: the step that fetches a CALL with the stack full ends in StackOverflow, `pc` the address
of the CALL plus 2, `sp` 16 and the stack unchanged; no step that fetches another instruction does.
(R169: log 1.) -/
def Obligations.CallOnAFullStackRaisesStackOverflow : Prop :=
  (∀ (s : State) (nnn : Addr), Fetches s (.call nnn) → s.sp.val = 16 →
    ∃ t, step s = .next t ∧ t.status = ⟨.faulted, some .stackOverflow⟩ ∧
      t.pc.toNat = s.pc.toNat + 2 ∧ t.sp.val = 16 ∧ ∀ k, t.stackAt k = s.stackAt k) ∧
  (∀ (s t : State) (i : Instr), Fetches s i → (∀ a, i ≠ .call a) → s.status.cause = none →
    step s = .next t → t.status.cause ≠ some .stackOverflow)

/-- R162: the step that fetches a RET with the stack empty ends in StackUnderflow, `pc` the address
of the RET plus 2, `sp` 0 and the stack unchanged; no step that fetches another instruction does. -/
def Obligations.RetOnAnEmptyStackRaisesStackUnderflow : Prop :=
  (∀ s : State, Fetches s .ret → s.sp.val = 0 →
    ∃ t, step s = .next t ∧ t.status = ⟨.faulted, some .stackUnderflow⟩ ∧
      t.pc.toNat = s.pc.toNat + 2 ∧ t.sp.val = 0 ∧ ∀ k, t.stackAt k = s.stackAt k) ∧
  (∀ (s t : State) (i : Instr), Fetches s i → i ≠ .ret → s.status.cause = none →
    step s = .next t → t.status.cause ≠ some .stackUnderflow)

/-- R134, properties 1 and 2: CALL then RET restores `pc` to the word after the CALL and `sp` to its
value before it; two nested calls followed by two returns leave the stack empty and resume after
the outer call. -/
def Obligations.CallThenReturnRestoresPcAndSp : Prop :=
  (∀ (s t u : State) (a : Addr), Fetches s (.call a) → s.sp.val < 16 → step s = .next t →
    Fetches t .ret → step t = .next u → u.pc.toNat = s.pc.toNat + 2 ∧ u.sp = s.sp) ∧
  (∀ (s t u v w : State) (a b : Addr), s.sp.val = 0 →
    Fetches s (.call a) → step s = .next t → Fetches t (.call b) → step t = .next u →
    Fetches u .ret → step u = .next v → Fetches v .ret → step v = .next w →
    w.sp.val = 0 ∧ w.pc.toNat = s.pc.toNat + 2)

/-- R134, the general sentence: whatever runs between, the first step after a CALL that brings `sp`
back to its value before the CALL goes to the word after that CALL, and the older entries are as
they were. -/
def Obligations.CallStackIsLastInFirstOut : Prop :=
  ∀ (s t u : State) (a : Addr) (k : Nat), Fetches s (.call a) → s.sp.val < 16 →
    step s = .next t →
    (∀ j, j ≤ k → ∃ v, runFor j t = .next v ∧ s.sp.val < v.sp.val) →
    runFor (k + 1) t = .next u → u.sp.val = s.sp.val →
    u.pc.toNat = s.pc.toNat + 2 ∧
      ∀ j : Fin 16, j.val < s.sp.val → u.stackAt j = s.stackAt j

/-! ### The whole machine -/

/-- R60 (2) and (3), R62: no run writes memory, so every fetch of a run sees the bytes of its
start. -/
def Obligations.NoRunWritesMemory : Prop :=
  ∀ (k : Nat) (s t : State), runFor k s = .next t →
    t.mem = s.mem ∧ ∀ a, t.read a = s.read a

/-- R37, its table: who writes what.  General registers change only by an ALU instruction, at its
destination or at the flag; the stack and `sp` only by CALL and RET; `status` only by HALT and
faults; memory never.  The host never writes `stack`, `sp` or `status`, but for the `run` request,
and does nothing to a running core but reset it (decision D14). -/
def Obligations.EachElementHasOnlyItsWriters : Prop :=
  (∀ s t : State, step s = .next t →
    t.mem = s.mem ∧
    (s.status.state ≠ .running → t = s) ∧
    (∀ r, t.getV r ≠ s.getV r →
      ∃ i, Fetches s i ∧ (i.dest = some r ∨ (r = 15 ∧ i.writesFlag = true))) ∧
    (t.stack ≠ s.stack → ∃ a, Fetches s (.call a)) ∧
    (t.sp ≠ s.sp → Fetches s .ret ∨ ∃ a, Fetches s (.call a)) ∧
    (t.status ≠ s.status → t.status.state = .faulted ∨ Fetches s .halt)) ∧
  (∀ (q : HostRequest) (s t : State), serve q s = some t →
    (q = .reset → t = State.reset) ∧
    (q ≠ .reset → t.stack = s.stack ∧ t.sp = s.sp ∧ t.status.cause = s.status.cause ∧
      (q ≠ .run → t.status = s.status) ∧ (s.status.state = .running → t = s)))

/-- The invariant at reset. -/
def Obligations.ResetSatisfiesInv : Prop := MachineInv State.reset

/-- Every step keeps the invariant: canonical memory, a cause exactly when faulted (R33), and live
stack entries that CALL can have saved (R27, R31). -/
def Obligations.EveryStepKeepsInv : Prop :=
  ∀ s t : State, MachineInv s → step s = .next t → MachineInv t

/-- Nothing the host may do breaks the invariant. -/
def Obligations.EveryHostRequestKeepsInv : Prop :=
  ∀ (q : HostRequest) (s t : State), MachineInv s → serve q s = some t → MachineInv t

/-- Every state the machine can reach, by steps and host requests in any order, satisfies the
invariant; in it a fault is named exactly when the run has ended in one (R172, R175). -/
def Obligations.EveryReachableStateSatisfiesInv : Prop :=
  ∀ s : State, Reachable s → MachineInv s ∧
    (s.status.state = .faulted ↔ ∃ c, s.status = ⟨.faulted, some c⟩)

/-- R27 (the width is decision D1): `pc` never passes 4096 once it is within it; a fetch that
succeeds puts it there, so for the rest of a run no arithmetic on `pc` wraps. -/
def Obligations.PcStaysAtMost4096 : Prop :=
  (∀ (k : Nat) (s t : State), MachineInv s → s.pc.toNat ≤ 4096 → runFor k s = .next t →
    t.pc.toNat ≤ 4096) ∧
  (∀ (s t : State) (w : Word), MachineInv s → s.fetchWord = some w → step s = .next t →
    t.pc.toNat ≤ 4096)

/-- R144: a run has ended normally exactly when a step of it fetched 0x0000; and wherever a step of
it fetched 0x0000, its final state is the state after that step: `pc` the halt word's address plus 2,
`status.state` Halted, all else as the preceding instructions left it.  (`pc`: decision D4, log 10.) -/
def Obligations.RunHaltsExactlyByFetchingZero : Prop :=
  ∀ (k : Nat) (s t : State), s.status.state = .running → runFor k s = .next t →
    (t.status.state = .halted ↔
      ∃ j u, j < k ∧ runFor j s = .next u ∧ u.status.state = .running ∧ u.fetchWord = some 0) ∧
    (∀ j u, j < k → runFor j s = .next u → u.status.state = .running → u.fetchWord = some 0 →
      t = { u with pc := t.pc, status := ⟨.halted, u.status.cause⟩ } ∧
      t.pc.toNat = u.pc.toNat + 2)

/-- R99: from every state the core is not `Running` after finitely many steps, and a run, which
starts `Running`, then has ended in a halt or a fault.  A theorem about the rules (`[derived]` in the
spec), from any state: nothing in the model bounds a run. -/
def Obligations.EveryRunEnds : Prop :=
  ∀ s : State, ∃ k t, runFor k s = .next t ∧ t.status.state ≠ .running ∧
    (s.status.state = .running → t.status.state = .halted ∨ t.status.state = .faulted)

/-- R99, last sentences: a run from `pc` = 0 that meets neither CALL nor RET ends within 2049
steps. -/
def Obligations.StraightRunEndsWithin2049Steps : Prop :=
  ∀ s : State, s.pc.toNat = 0 →
    (∀ j u i, runFor j s = .next u → Fetches u i → i ≠ .ret ∧ ∀ a, i ≠ .call a) →
    ∃ t, runFor 2049 s = .next t ∧ t.status.state ≠ .running

/-! ### The host -/

/-- R142: a `run` request in `Idle` or `Halted` starts or continues a run and loads nothing: it sets
neither `pc`, `sp`, a register, the stack nor memory. -/
def Obligations.RunRequestLoadsNothing : Prop :=
  ∀ s : State, s.status.state = .idle ∨ s.status.state = .halted →
    ∃ t, serve .run s = some t ∧ t.status = ⟨.running, s.status.cause⟩ ∧
      t.pc = s.pc ∧ SameV s t ∧ SameMem s t ∧ SameStack s t

/-- R143, R171, R192 (decision D12): a faulted core ignores steps and `run` requests, and every
other request but reset is no move at all; only reset leaves `Faulted`. -/
def Obligations.OnlyResetLeavesAFault : Prop :=
  ∀ s : State, s.status.state = .faulted →
    step s = .next s ∧ serve .run s = some s ∧
    (∀ q t, serve q s = some t → q = .reset ∧ t = State.reset ∨ t = s)

/-- R146 (decision D14): in `Idle` and `Halted` the host may write any byte of memory, any general
register and `pc`, each write changing that one thing; in `Running` and `Faulted` it may write
nothing; it may read the state except while `Running`; a `run` request in `Running` is ignored (R141,
decision D12). -/
def Obligations.HostWritesOneElementBetweenRuns : Prop :=
  (∀ s : State, s.status.state = .idle ∨ s.status.state = .halted →
    (∀ a b, Memory.wf s.mem = true → ∃ t, serve (.writeMem a b) s = some t ∧
      t.read a.toNat = b ∧ (∀ i, i ≠ a.toNat → t.read i = s.read i) ∧
      SameV s t ∧ SameStack s t ∧ t.pc = s.pc ∧ t.status = s.status) ∧
    (∀ r b, ∃ t, serve (.writeV r b) s = some t ∧
      t.getV r = b ∧ SameVBut [r] s t ∧ OnlyV s t) ∧
    (∀ w, ∃ t, serve (.writePc w) s = some t ∧ t.pc = w ∧
      SameV s t ∧ SameMem s t ∧ SameStack s t ∧ t.status = s.status) ∧
    inspect s = some s) ∧
  (∀ s : State, s.status.state = .running ∨ s.status.state = .faulted →
    (∀ a b, serve (.writeMem a b) s = none) ∧ (∀ r b, serve (.writeV r b) s = none) ∧
    (∀ w, serve (.writePc w) s = none)) ∧
  (∀ s : State, s.status.state = .running → inspect s = none ∧ serve .run s = some s) ∧
  (∀ s : State, s.status.state = .faulted → inspect s = some s)

/-- R33 (decision D10): the bits of the `status` register, `state` in bits 1 to 0 and `cause` in
bits 4 to 2; the causes 5 to 7 are never produced. -/
def Obligations.StatusBitsAreStateAndCause : Prop :=
  (∀ t : Status, (t.bits.toNat % 4 = 0 ↔ t.state = .idle) ∧
    (t.bits.toNat % 4 = 1 ↔ t.state = .running) ∧ (t.bits.toNat % 4 = 2 ↔ t.state = .halted) ∧
    (t.bits.toNat % 4 = 3 ↔ t.state = .faulted) ∧
    (t.bits.toNat / 4 = 0 ↔ t.cause = none) ∧
    (t.bits.toNat / 4 = 1 ↔ t.cause = some .stackOverflow) ∧
    (t.bits.toNat / 4 = 2 ↔ t.cause = some .stackUnderflow) ∧
    (t.bits.toNat / 4 = 3 ↔ t.cause = some .outOfBounds) ∧
    (t.bits.toNat / 4 = 4 ↔ t.cause = some .unimplementedOpcode) ∧
    t.bits.toNat / 4 ≤ 4)
end

