-- ==== Sys2Proof/Laws/Config.lean ====
section
/-! SUPPORT. The values of the implementation parameters (R5), for simp and before omega. -/

namespace Sys2Proof.Config

@[simp] theorem memSize_eq : memSize = 4096 := rfl

@[simp] theorem stackDepth_eq : stackDepth = 16 := rfl

@[simp] theorem flagReg_eq : flagReg = 15 := rfl

@[simp] theorem shlFlagBit_eq : shlFlagBit = 0 := rfl

@[simp] theorem addStoresOnCarry_eq : addStoresOnCarry = false := rfl

@[simp] theorem subFlagNoBorrow_eq : subFlagNoBorrow = 1 := rfl

@[simp] theorem subFlagBorrow_eq : subFlagBorrow = 0 := rfl

end Sys2Proof.Config
end

