-- ==== Sys2Proof/Laws/Alu.lean ====
section
/-! SUPPORT. The pure ALU functions, case by case (the rows of R120). -/

namespace Sys2Proof.Machine

theorem Alu.add_fits {a b : Byte} (h : a.toNat + b.toNat ≤ 255) :
    Alu.add a b = ⟨some (BitVec.ofNat 8 (a.toNat + b.toNat)), some 0⟩ := by
  simp [Alu.add, show ¬ a.toNat + b.toNat > 255 by omega]

theorem Alu.add_carries {a b : Byte} (h : 255 < a.toNat + b.toNat) :
    Alu.add a b = ⟨none, some 1⟩ := by
  simp [Alu.add, h]

theorem Alu.sub_fits {a b : Byte} (h : b.toNat ≤ a.toNat) :
    Alu.sub a b = ⟨some (BitVec.ofNat 8 (a.toNat - b.toNat)), some 1⟩ := by
  simp only [Alu.sub, if_neg (show ¬ a.toNat < b.toNat by omega), Config.subFlagNoBorrow_eq]

theorem Alu.sub_borrows {a b : Byte} (h : a.toNat < b.toNat) : Alu.sub a b = ⟨none, some 0⟩ := by
  simp only [Alu.sub, if_pos h, Config.subFlagBorrow_eq]

/-- RSUB is SUB with its operands exchanged. -/
theorem Alu.rsub_eq (a b : Byte) : Alu.rsub a b = Alu.sub b a := rfl

theorem Alu.bit_zero_or_one (a : Byte) (k : Nat) : Alu.bit a k = 0 ∨ Alu.bit a k = 1 := by
  unfold Alu.bit
  split <;> simp

theorem Alu.bit_zero_toNat (a : Byte) : (Alu.bit a 0).toNat = a.toNat % 2 := by
  revert a
  decide

/-- The flag of an operation that writes one is 0 or 1 (R24). -/
theorem Alu.add_flag (a b : Byte) : (Alu.add a b).flag = some 0 ∨ (Alu.add a b).flag = some 1 := by
  rcases Nat.lt_or_ge 255 (a.toNat + b.toNat) with h | h
  · exact .inr (by rw [Alu.add_carries h])
  · exact .inl (by rw [Alu.add_fits h])

theorem Alu.sub_flag (a b : Byte) : (Alu.sub a b).flag = some 0 ∨ (Alu.sub a b).flag = some 1 := by
  rcases Nat.lt_or_ge a.toNat b.toNat with h | h
  · exact .inl (by rw [Alu.sub_borrows h])
  · exact .inr (by rw [Alu.sub_fits h])

end Sys2Proof.Machine
end

