-- ==== Sys2Proof/Laws/Decode.lean ====
section
/-! SUPPORT. Byte order, the fields of a word and the encoding formats as numbers, and that the
operand types hold every operand in its range. -/

namespace Sys2Proof

/-- Every term of Instr is well-formed: its operand types are its fields. -/
theorem wellFormed_all (i : Instr) : i.wellFormed = true := by
  cases i <;> simp [Instr.wellFormed, fitsReg, fitsAddr]
  omega

/-! ### Byte order (R54) -/

theorem be16_toNat (hi lo : Byte) : (be16 hi lo).toNat = 256 * hi.toNat + lo.toNat := by
  have h := Nat.two_pow_add_eq_or_of_lt (i := 8) lo.isLt hi.toNat
  have h1 := hi.isLt
  have h2 := lo.isLt
  simp only [be16, BitVec.toNat_or, BitVec.toNat_shiftLeft, BitVec.toNat_setWidth,
    Nat.shiftLeft_eq]
  rw [Nat.mod_eq_of_lt (by omega : hi.toNat < 2 ^ 16), Nat.mod_eq_of_lt (by omega :
    lo.toNat < 2 ^ 16), Nat.mod_eq_of_lt (by omega), Nat.mul_comm, ← h]

theorem hiByte_toNat (op : Word) : (hiByte op).toNat = op.toNat / 256 := by
  have := op.isLt
  simp only [hiByte, BitVec.extractLsb'_toNat, Nat.shiftRight_eq_div_pow]
  omega

theorem loByte_toNat (op : Word) : (loByte op).toNat = op.toNat % 256 := by
  simp [loByte]

@[simp] theorem hiByte_be16 (hi lo : Byte) : hiByte (be16 hi lo) = hi := by
  apply BitVec.eq_of_toNat_eq
  have := lo.isLt
  rw [hiByte_toNat, be16_toNat]
  omega

@[simp] theorem loByte_be16 (hi lo : Byte) : loByte (be16 hi lo) = lo := by
  apply BitVec.eq_of_toNat_eq
  have := lo.isLt
  rw [loByte_toNat, be16_toNat]
  omega

@[simp] theorem be16_bytes (op : Word) : be16 (hiByte op) (loByte op) = op := by
  apply BitVec.eq_of_toNat_eq
  rw [be16_toNat, hiByte_toNat, loByte_toNat]
  omega

/-- Decoding a word's bytes is decoding the word. -/
theorem decode_wordBytes (op : Word) (rest : List Byte) :
    decode (wordBytes op ++ rest) = (decodeWord op).map (fun i => (i, rest)) := by
  simp only [wordBytes, List.cons_append, List.nil_append, decode, be16_bytes]
  cases decodeWord op <;> rfl

/-! ### Fields (R71) -/

theorem majorOf_toNat (op : Word) : (majorOf op).toNat = op.toNat / 4096 := by
  have := op.isLt
  simp only [majorOf, BitVec.extractLsb'_toNat, Nat.shiftRight_eq_div_pow]
  omega

theorem xOf_val (op : Word) : (xOf op).val = op.toNat / 256 % 16 := by
  simp [xOf, Nat.shiftRight_eq_div_pow]

theorem yOf_val (op : Word) : (yOf op).val = op.toNat / 16 % 16 := by
  simp [yOf, Nat.shiftRight_eq_div_pow]

theorem minorOf_toNat (op : Word) : (minorOf op).toNat = op.toNat % 16 := by
  simp [minorOf]

theorem nnnOf_toNat (op : Word) : (nnnOf op).toNat = op.toNat % 4096 := by
  simp [nnnOf]

/-! ### Formats (R72) -/

theorem formatA_toNat (nnn : Addr) : (formatA nnn).toNat = 8192 + nnn.toNat := by
  have h := Nat.two_pow_add_eq_or_of_lt (i := 12) nnn.isLt 2
  simp only [formatA, BitVec.toNat_append, Nat.shiftLeft_eq]
  simpa [Nat.mul_comm] using h.symm

theorem formatR_toNat (x y : Reg) (n : BitVec 4) :
    (formatR x y n).toNat = 32768 + 256 * x.val + 16 * y.val + n.toNat := by
  have hy := Nat.two_pow_add_eq_or_of_lt (i := 4) n.isLt y.val
  have hx := Nat.two_pow_add_eq_or_of_lt (i := 8) (b := 16 * y.val + n.toNat)
    (by have := y.isLt; have := n.isLt; omega) x.val
  have h8 := Nat.two_pow_add_eq_or_of_lt (i := 12) (b := 256 * x.val + (16 * y.val + n.toNat))
    (by have := x.isLt; have := y.isLt; have := n.isLt; omega) 8
  simp only [formatR, BitVec.toNat_append, BitVec.toNat_ofFin, Nat.shiftLeft_eq,
    BitVec.toNat_ofNat]
  norm_num at hy hx h8 ⊢
  rw [Nat.mul_comm y.val 16, ← hy, Nat.mul_comm x.val 256, ← hx, ← h8]
  omega

end Sys2Proof
end

