-- ==== Sys2Proof/Laws/Memory.lean ====
section
/-! SUPPORT. Memory: a read after a write, and that every memory operation keeps the canonical
form. -/

namespace Sys2Proof.Machine

/-- Nothing below the bound of a canonical list is listed, so it reads as unlisted. -/
theorem Memory.read_below {lo : Nat} {m : List Host.Cell} (h : Memory.wfFrom lo m = true)
    {a : Nat} (ha : a < lo) : Memory.read m a = Memory.unlisted := by
  induction m generalizing lo with
  | nil => rfl
  | cons c rest ih =>
    obtain ⟨k, b⟩ := c
    simp only [Memory.wfFrom, Bool.and_eq_true, decide_eq_true_eq] at h
    have : k ≠ a := by omega
    simp [Memory.read, this, ih h.2 (by omega)]

/-- The bound of a canonical list may be lowered. -/
theorem Memory.wfFrom_mono {lo lo' : Nat} {m : List Host.Cell} (h : Memory.wfFrom lo m = true)
    (hl : lo' ≤ lo) : Memory.wfFrom lo' m = true := by
  cases m with
  | nil => rfl
  | cons c rest =>
    obtain ⟨k, b⟩ := c
    simp only [Memory.wfFrom, Bool.and_eq_true, decide_eq_true_eq] at h ⊢
    exact ⟨⟨⟨by omega, h.1.1.2⟩, h.1.2⟩, h.2⟩

theorem Memory.read_write_ne (m : List Host.Cell) {a i : Nat} (b : Byte) (h : i ≠ a) :
    Memory.read (Memory.write m a b) i = Memory.read m i := by
  induction m with
  | nil => simp only [Memory.write]; split <;> simp [Memory.read, Ne.symm h]
  | cons c rest ih =>
    obtain ⟨k, d⟩ := c
    simp only [Memory.write]
    split
    · split <;> simp [Memory.read, Ne.symm h]
    · split
      · next hk => subst hk; split <;> simp [Memory.read, Ne.symm h]
      · simp [Memory.read, ih]

theorem Memory.read_write_same {lo : Nat} {m : List Host.Cell} (h : Memory.wfFrom lo m = true)
    (a : Nat) (b : Byte) : Memory.read (Memory.write m a b) a = b := by
  induction m generalizing lo with
  | nil =>
    simp only [Memory.write]
    split
    · next hb => rw [hb]; rfl
    · simp [Memory.read]
  | cons c rest ih =>
    obtain ⟨k, d⟩ := c
    have h' := h
    simp only [Memory.wfFrom, Bool.and_eq_true, decide_eq_true_eq] at h'
    simp only [Memory.write]
    split
    · next hk =>
      split
      · next hb => rw [Memory.read_below (lo := k) (by simp [Memory.wfFrom, h']) hk, hb]
      · simp [Memory.read]
    · split
      · next hk =>
        subst hk
        split
        · next hb => rw [Memory.read_below h'.2 (by omega), hb]
        · simp [Memory.read]
      · next hk => simp [Memory.read, Ne.symm hk, ih h'.2]

/-- What a write does, read by read. -/
theorem Memory.read_write {m : List Host.Cell} (h : Memory.wf m = true) (a i : Nat) (b : Byte) :
    Memory.read (Memory.write m a b) i = if i = a then b else Memory.read m i := by
  split
  · next e => subst e; exact Memory.read_write_same h _ b
  · next e => exact Memory.read_write_ne m b e

theorem Memory.write_wfFrom {lo : Nat} {m : List Host.Cell} (h : Memory.wfFrom lo m = true)
    {a : Nat} (hl : lo ≤ a) (ha : a < Config.memSize) (b : Byte) :
    Memory.wfFrom lo (Memory.write m a b) = true := by
  induction m generalizing lo with
  | nil =>
    simp only [Memory.write]
    split
    · rfl
    · next hb => simp [Memory.wfFrom, hl, ha, hb]
  | cons c rest ih =>
    obtain ⟨k, d⟩ := c
    have h' := h
    simp only [Memory.wfFrom, Bool.and_eq_true, decide_eq_true_eq] at h'
    simp only [Memory.write]
    split
    · next hk =>
      split
      · exact h
      · next hb => simp [Memory.wfFrom, hl, ha, hb, h', Nat.succ_le_of_lt hk]
    · split
      · next hk =>
        split
        · exact Memory.wfFrom_mono h'.2 (by omega)
        · next hb => subst hk; simp [Memory.wfFrom, hl, ha, hb, h']
      · next h1 h2 => simp [Memory.wfFrom, h', ih h'.2 (by omega)]

/-- A write inside memory keeps the canonical form. -/
theorem Memory.write_wf {m : List Host.Cell} (h : Memory.wf m = true) {a : Nat}
    (ha : a < Config.memSize) (b : Byte) : Memory.wf (Memory.write m a b) = true :=
  Memory.write_wfFrom h (Nat.zero_le a) ha b

/-- Successive writes keep the canonical form, wherever they begin. -/
theorem Memory.writeBytes_wf {m : List Host.Cell} (h : Memory.wf m = true) (a : Nat)
    (bs : List Byte) : Memory.wf (Memory.writeBytes m a bs) = true := by
  induction bs generalizing m a with
  | nil => exact h
  | cons b bs ih =>
    simp only [Memory.writeBytes]
    split
    · next ha => exact ih (Memory.write_wf h ha b) _
    · exact ih h _

/-- Successive writes leave every address outside them as it was. -/
theorem Memory.read_writeBytes_below (m : List Host.Cell) {a i : Nat} (bs : List Byte)
    (h : i < a) : Memory.read (Memory.writeBytes m a bs) i = Memory.read m i := by
  induction bs generalizing m a with
  | nil => rfl
  | cons b bs ih =>
    simp only [Memory.writeBytes]
    rw [ih _ (Nat.lt_succ_of_lt h)]
    split
    · exact Memory.read_write_ne m b (by omega)
    · rfl

theorem Memory.reset_wf : Memory.wf State.reset.mem = true := rfl

end Sys2Proof.Machine
end

