-- ==== Sys2Proof/Laws/State.lean ====
section
/-! SUPPORT. One lemma per field per update of the state, and what reading a register, a byte or a
stack entry gives after each update. -/

namespace Sys2Proof.Machine

variable (s : State)

/-! ### `State.setV` -/

@[simp] theorem State.setV_v (r : Reg) (b : Byte) : (s.setV r b).v = s.v.set r.val b := rfl
@[simp] theorem State.setV_mem (r : Reg) (b : Byte) : (s.setV r b).mem = s.mem := rfl
@[simp] theorem State.setV_pc (r : Reg) (b : Byte) : (s.setV r b).pc = s.pc := rfl
@[simp] theorem State.setV_stack (r : Reg) (b : Byte) : (s.setV r b).stack = s.stack := rfl
@[simp] theorem State.setV_sp (r : Reg) (b : Byte) : (s.setV r b).sp = s.sp := rfl
@[simp] theorem State.setV_status (r : Reg) (b : Byte) : (s.setV r b).status = s.status := rfl

@[simp] theorem State.read_setV (r : Reg) (b : Byte) (i : Nat) : (s.setV r b).read i = s.read i := rfl
@[simp] theorem State.stackAt_setV (r : Reg) (b : Byte) (k : Fin 16) : (s.setV r b).stackAt k = s.stackAt k := rfl

/-! ### `State.writeMem` -/

@[simp] theorem State.writeMem_v (a : Nat) (b : Byte) : (s.writeMem a b).v = s.v := rfl
@[simp] theorem State.writeMem_mem (a : Nat) (b : Byte) : (s.writeMem a b).mem = Memory.write s.mem a b := rfl
@[simp] theorem State.writeMem_pc (a : Nat) (b : Byte) : (s.writeMem a b).pc = s.pc := rfl
@[simp] theorem State.writeMem_stack (a : Nat) (b : Byte) : (s.writeMem a b).stack = s.stack := rfl
@[simp] theorem State.writeMem_sp (a : Nat) (b : Byte) : (s.writeMem a b).sp = s.sp := rfl
@[simp] theorem State.writeMem_status (a : Nat) (b : Byte) : (s.writeMem a b).status = s.status := rfl

@[simp] theorem State.getV_writeMem (a : Nat) (b : Byte) (q : Reg) : (s.writeMem a b).getV q = s.getV q := rfl
@[simp] theorem State.stackAt_writeMem (a : Nat) (b : Byte) (k : Fin 16) : (s.writeMem a b).stackAt k = s.stackAt k := rfl

/-! ### `State.setPc` -/

@[simp] theorem State.setPc_v (w : Word) : (s.setPc w).v = s.v := rfl
@[simp] theorem State.setPc_mem (w : Word) : (s.setPc w).mem = s.mem := rfl
@[simp] theorem State.setPc_pc (w : Word) : (s.setPc w).pc = w := rfl
@[simp] theorem State.setPc_stack (w : Word) : (s.setPc w).stack = s.stack := rfl
@[simp] theorem State.setPc_sp (w : Word) : (s.setPc w).sp = s.sp := rfl
@[simp] theorem State.setPc_status (w : Word) : (s.setPc w).status = s.status := rfl

@[simp] theorem State.getV_setPc (w : Word) (q : Reg) : (s.setPc w).getV q = s.getV q := rfl
@[simp] theorem State.read_setPc (w : Word) (i : Nat) : (s.setPc w).read i = s.read i := rfl
@[simp] theorem State.stackAt_setPc (w : Word) (k : Fin 16) : (s.setPc w).stackAt k = s.stackAt k := rfl

/-! ### `State.advancePc` -/

@[simp] theorem State.advancePc_v : (s.advancePc).v = s.v := rfl
@[simp] theorem State.advancePc_mem : (s.advancePc).mem = s.mem := rfl
@[simp] theorem State.advancePc_pc : (s.advancePc).pc = s.pc + 2 := rfl
@[simp] theorem State.advancePc_stack : (s.advancePc).stack = s.stack := rfl
@[simp] theorem State.advancePc_sp : (s.advancePc).sp = s.sp := rfl
@[simp] theorem State.advancePc_status : (s.advancePc).status = s.status := rfl

@[simp] theorem State.getV_advancePc (q : Reg) : (s.advancePc).getV q = s.getV q := rfl
@[simp] theorem State.read_advancePc (i : Nat) : (s.advancePc).read i = s.read i := rfl
@[simp] theorem State.stackAt_advancePc (k : Fin 16) : (s.advancePc).stackAt k = s.stackAt k := rfl

/-! ### `State.setRunState` -/

@[simp] theorem State.setRunState_v (r : RunState) : (s.setRunState r).v = s.v := rfl
@[simp] theorem State.setRunState_mem (r : RunState) : (s.setRunState r).mem = s.mem := rfl
@[simp] theorem State.setRunState_pc (r : RunState) : (s.setRunState r).pc = s.pc := rfl
@[simp] theorem State.setRunState_stack (r : RunState) : (s.setRunState r).stack = s.stack := rfl
@[simp] theorem State.setRunState_sp (r : RunState) : (s.setRunState r).sp = s.sp := rfl
@[simp] theorem State.setRunState_status (r : RunState) : (s.setRunState r).status = ⟨r, s.status.cause⟩ := rfl

@[simp] theorem State.getV_setRunState (r : RunState) (q : Reg) : (s.setRunState r).getV q = s.getV q := rfl
@[simp] theorem State.read_setRunState (r : RunState) (i : Nat) : (s.setRunState r).read i = s.read i := rfl
@[simp] theorem State.stackAt_setRunState (r : RunState) (k : Fin 16) : (s.setRunState r).stackAt k = s.stackAt k := rfl

/-! ### `State.faulted` -/

@[simp] theorem State.faulted_v (c : Fault) : (s.faulted c).v = s.v := rfl
@[simp] theorem State.faulted_mem (c : Fault) : (s.faulted c).mem = s.mem := rfl
@[simp] theorem State.faulted_pc (c : Fault) : (s.faulted c).pc = s.pc := rfl
@[simp] theorem State.faulted_stack (c : Fault) : (s.faulted c).stack = s.stack := rfl
@[simp] theorem State.faulted_sp (c : Fault) : (s.faulted c).sp = s.sp := rfl
@[simp] theorem State.faulted_status (c : Fault) : (s.faulted c).status = ⟨.faulted, some c⟩ := rfl

@[simp] theorem State.getV_faulted (c : Fault) (q : Reg) : (s.faulted c).getV q = s.getV q := rfl
@[simp] theorem State.read_faulted (c : Fault) (i : Nat) : (s.faulted c).read i = s.read i := rfl
@[simp] theorem State.stackAt_faulted (c : Fault) (k : Fin 16) : (s.faulted c).stackAt k = s.stackAt k := rfl

/-! ### `State.placeInstr` -/

@[simp] theorem State.placeInstr_v (bs : List Byte) : (s.placeInstr bs).v = s.v := rfl
@[simp] theorem State.placeInstr_mem (bs : List Byte) : (s.placeInstr bs).mem = Memory.writeBytes s.mem s.pc.toNat bs := rfl
@[simp] theorem State.placeInstr_pc (bs : List Byte) : (s.placeInstr bs).pc = s.pc := rfl
@[simp] theorem State.placeInstr_stack (bs : List Byte) : (s.placeInstr bs).stack = s.stack := rfl
@[simp] theorem State.placeInstr_sp (bs : List Byte) : (s.placeInstr bs).sp = s.sp := rfl
@[simp] theorem State.placeInstr_status (bs : List Byte) : (s.placeInstr bs).status = ⟨.running, none⟩ := rfl

@[simp] theorem State.getV_placeInstr (bs : List Byte) (q : Reg) : (s.placeInstr bs).getV q = s.getV q := rfl
@[simp] theorem State.stackAt_placeInstr (bs : List Byte) (k : Fin 16) : (s.placeInstr bs).stackAt k = s.stackAt k := rfl

/-! ### Register read after write -/

@[simp] theorem State.getV_setV_same (r : Reg) (b : Byte) : (s.setV r b).getV r = b := by
  simp [State.getV, State.setV]

theorem State.getV_setV_ne {r q : Reg} (b : Byte) (h : q ≠ r) :
    (s.setV r b).getV q = s.getV q := by
  have : r.val ≠ q.val := fun e => h (Fin.ext e.symm)
  simp [State.getV, State.setV, this]

theorem State.getV_setV (r q : Reg) (b : Byte) :
    (s.setV r b).getV q = if q = r then b else s.getV q := by
  split
  · next h => subst h; simp
  · next h => exact s.getV_setV_ne b h

/-- Two states with the same fields, registers and stack entries read one by one, are equal. -/
theorem State.ext_reads {s t : State} (hv : ∀ r, t.getV r = s.getV r) (hm : t.mem = s.mem)
    (hp : t.pc = s.pc) (hk : ∀ k, t.stackAt k = s.stackAt k) (hs : t.sp = s.sp)
    (hst : t.status = s.status) : t = s := by
  have h1 : t.v = s.v := Vector.ext fun i hi => hv ⟨i, hi⟩
  have h2 : t.stack = s.stack := Vector.ext fun i hi => hk ⟨i, hi⟩
  cases s; cases t; simp_all

/-! ### Reset -/

@[simp] theorem State.getV_reset (r : Reg) : State.reset.getV r = 0 := by
  simp [State.getV, State.reset]

@[simp] theorem State.read_reset (a : Nat) : State.reset.read a = 0 := rfl

@[simp] theorem State.stackAt_reset (k : Fin 16) : State.reset.stackAt k = 0 := by
  simp [State.stackAt, State.reset]

end Sys2Proof.Machine
end

