-- ==== Sys2Proof/Laws/Ops.lean ====
section
/-! SUPPORT. For each shared operation, once, everything it can do. -/

namespace Sys2Proof.Machine

/-! ### The fetch (R91) -/

theorem fetchWord_of_le {s : State} (h : s.pc.toNat ≤ 4094) :
    s.fetchWord = some (be16 (s.read s.pc.toNat) (s.read (s.pc.toNat + 1))) := by
  simp [State.fetchWord, show s.pc.toNat + 1 < 4096 by omega]

theorem fetchWord_eq_none_iff {s : State} : s.fetchWord = none ↔ 4094 < s.pc.toNat := by
  simp only [State.fetchWord, Config.memSize_eq]
  split <;> simp <;> omega

theorem pc_le_of_fetchWord {s : State} {w : Word} (h : s.fetchWord = some w) :
    s.pc.toNat ≤ 4094 := by
  by_contra hn
  rw [fetchWord_eq_none_iff.mpr (by omega)] at h
  cases h

/-! ### The call stack (R131 to R133) -/

theorem push_eq_none_iff {s : State} {w : Word} : s.push w = none ↔ s.sp.val = 16 := by
  have := s.sp.isLt
  simp only [State.push, Config.stackDepth_eq]
  split <;> simp <;> omega

/-- A push that succeeds: the slot at `sp` receives the word, `sp` rises by one, and nothing else
changes. -/
theorem push_cases {s t : State} {w : Word} (h : s.push w = some t) :
    ∃ hlt : s.sp.val < 16, t.sp.val = s.sp.val + 1 ∧ t.stackAt ⟨s.sp.val, hlt⟩ = w ∧
      (∀ k : Fin 16, k.val ≠ s.sp.val → t.stackAt k = s.stackAt k) ∧
      t.v = s.v ∧ t.mem = s.mem ∧ t.pc = s.pc ∧ t.status = s.status := by
  simp only [State.push] at h
  split at h
  · next hlt =>
    cases h
    refine ⟨hlt, rfl, by simp [State.stackAt], ?_, rfl, rfl, rfl, rfl⟩
    intro k hk
    simp [State.stackAt, Ne.symm hk]
  · cases h

theorem push_isSome {s : State} (w : Word) (h : s.sp.val < 16) : ∃ t, s.push w = some t := by
  cases hp : s.push w with
  | none => have := push_eq_none_iff.mp hp; omega
  | some t => exact ⟨t, rfl⟩

theorem pop_eq_none_iff {s : State} : s.pop = none ↔ s.sp.val = 0 := by
  simp only [State.pop]
  split <;> simp_all

/-- A pop that succeeds: it gives the entry at the decremented `sp`, and changes only `sp`. -/
theorem pop_cases {s t : State} {w : Word} (h : s.pop = some (w, t)) :
    ∃ k : Fin 16, s.sp.val = k.val + 1 ∧ w = s.stackAt k ∧ t.sp.val = k.val ∧
      t.stack = s.stack ∧ t.v = s.v ∧ t.mem = s.mem ∧ t.pc = s.pc ∧ t.status = s.status := by
  have hsp := s.sp.isLt
  simp only [State.pop] at h
  split at h
  · cases h
  · next h0 =>
    cases h
    exact ⟨⟨s.sp.val - 1, by omega⟩, by simp only; omega, rfl, rfl, rfl, rfl, rfl, rfl, rfl⟩

theorem pop_isSome {s : State} (h : s.sp.val ≠ 0) : ∃ w t, s.pop = some (w, t) := by
  cases hp : s.pop with
  | none => exact absurd (pop_eq_none_iff.mp hp) h
  | some wt => exact ⟨wt.1, wt.2, rfl⟩

/-! ### The write-back of an ALU instruction (R110) -/

/-- Only general registers change. -/
theorem writeBack_rest (s : State) (x : Reg) (o : AluOut) :
    (s.writeBack x o).mem = s.mem ∧ (s.writeBack x o).pc = s.pc ∧
      (s.writeBack x o).stack = s.stack ∧ (s.writeBack x o).sp = s.sp ∧
      (s.writeBack x o).status = s.status := by
  obtain ⟨r, f⟩ := o
  cases r <;> cases f <;> simp [State.writeBack, State.writeFlag, State.writeResult]

/-- The register read after the write-back: the result at `x` where there is one, else the flag at
15 where there is one, else the old value. -/
theorem getV_writeBack (s : State) (x r : Reg) (o : AluOut) :
    (s.writeBack x o).getV r =
      match o.result, o.flag with
      | some b, some f => if r = x then b else if r = 15 then f else s.getV r
      | some b, none => if r = x then b else s.getV r
      | none, some f => if r = 15 then f else s.getV r
      | none, none => s.getV r := by
  obtain ⟨b, f⟩ := o
  cases b <;> cases f <;>
    simp [State.writeBack, State.writeFlag, State.writeResult, State.getV_setV]

/-! ### The host's requests (R141, R146) -/

/-- Everything a request can do. -/
theorem serve_cases {q : HostRequest} {s t : State} (h : serve q s = some t) :
    (q = .reset ∧ t = State.reset) ∨
    (q = .run ∧ s.hostMayWrite = true ∧ t = s.setRunState .running) ∨
    (q = .run ∧ s.hostMayWrite = false ∧ t = s) ∨
    (∃ a b, q = .writeMem a b ∧ s.hostMayWrite = true ∧ t = s.writeMem a.toNat b) ∨
    (∃ r b, q = .writeV r b ∧ s.hostMayWrite = true ∧ t = s.setV r b) ∨
    (∃ w, q = .writePc w ∧ s.hostMayWrite = true ∧ t = s.setPc w) := by
  cases hw : s.hostMayWrite <;> cases q <;> simp_all [serve, resetRequest, runRequest]

theorem hostMayWrite_iff {s : State} :
    s.hostMayWrite = true ↔ s.status.state = .idle ∨ s.status.state = .halted := by
  simp only [State.hostMayWrite]
  cases s.status.state <;> simp

end Sys2Proof.Machine
end

