-- ==== Sys2Proof/Laws/PerInstr.lean ====
section
/-! SUPPORT. A statement about every instruction as syntax, one lemma per constructor: its operands
are in range, and its word carries the fixed bits of its row of the instruction list (R76). -/

namespace Sys2Proof.Laws.FixedBits

/-- The instruction's word is covered by its own row of R76. -/
def Statement (i : Instr) : Prop :=
  i.wellFormed = true ∧ encode i &&& i.row.mask = i.row.pattern

/-- A format `R` word under the mask of its rows. -/
theorem formatR_masked (x y : Reg) (n : BitVec 4) :
    formatR x y n &&& 0xF00F#16 = formatR 0 0 n := by
  have mask : 0xF00F#16 = 0xF#4 ++ (0x0#4 ++ (0x0#4 ++ 0xF#4)) := by decide
  have h8 : 0x8#4 &&& 0xF#4 = 0x8#4 := by decide
  have hn : n &&& 0xF#4 = n := BitVec.and_allOnes
  have h0 : BitVec.ofFin (w := 4) 0 = 0#4 := rfl
  simp only [formatR]
  rw [mask, BitVec.and_append, BitVec.and_append, BitVec.and_append, h8, hn, h0,
    BitVec.and_zero, BitVec.and_zero]

theorem halt : Statement .halt := ⟨rfl, rfl⟩

theorem ret : Statement .ret := ⟨rfl, rfl⟩

theorem call (nnn : Addr) : Statement (.call nnn) := by
  refine ⟨wellFormed_all _, ?_⟩
  simp only [encode, Instr.row, formatA]
  have mask : 0xF000#16 = 0xF#4 ++ 0x000#12 := by decide
  have h2 : 0x2#4 &&& 0xF#4 = 0x2#4 := by decide
  rw [mask, BitVec.and_append, h2, BitVec.and_zero]
  rfl

theorem mov (x y : Reg) : Statement (.mov x y) :=
  ⟨wellFormed_all _, formatR_masked x y 0x0#4⟩

theorem or (x y : Reg) : Statement (.or x y) :=
  ⟨wellFormed_all _, formatR_masked x y 0x1#4⟩

theorem and (x y : Reg) : Statement (.and x y) :=
  ⟨wellFormed_all _, formatR_masked x y 0x2#4⟩

theorem xor (x y : Reg) : Statement (.xor x y) :=
  ⟨wellFormed_all _, formatR_masked x y 0x3#4⟩

theorem add (x y : Reg) : Statement (.add x y) :=
  ⟨wellFormed_all _, formatR_masked x y 0x4#4⟩

theorem sub (x y : Reg) : Statement (.sub x y) :=
  ⟨wellFormed_all _, formatR_masked x y 0x5#4⟩

theorem shr (x y : Reg) : Statement (.shr x y) :=
  ⟨wellFormed_all _, formatR_masked x y 0x6#4⟩

theorem rsub (x y : Reg) : Statement (.rsub x y) :=
  ⟨wellFormed_all _, formatR_masked x y 0x7#4⟩

theorem shl (x y : Reg) : Statement (.shl x y) :=
  ⟨wellFormed_all _, formatR_masked x y 0xE#4⟩

end Sys2Proof.Laws.FixedBits
end

