-- ==== Sys2Proof/Laws/Step.lean ====
section
/-! SUPPORT. What a meaning and a step can answer, once, for the proofs to cite. -/

namespace Sys2Proof.Machine

/-- An ALU meaning answers the write-back of its destination, with a flag only where it is one of
the five that write it. -/
theorem exec_alu {i : Instr} {x : Reg} (h : i.dest = some x) (s : State) :
    ∃ o : AluOut, (o.flag.isSome = true → i.writesFlag = true) ∧
      exec i s = .next (s.writeBack x o) := by
  cases i <;> cases h
  all_goals exact ⟨_, by simp [Instr.writesFlag, Alu.mov, Alu.or, Alu.and, Alu.xor], rfl⟩

/-- The ALU instructions are those with a destination. -/
theorem isAlu_iff_dest {i : Instr} : i.isAlu = true ↔ ∃ x, i.dest = some x := by
  cases i <;> simp [Instr.isAlu, Instr.dest]

/-- Everything CALL can do (R131). -/
theorem execCall_cases (nnn : Addr) (s : State) :
    (s.sp.val = 16 ∧ execCall nnn s = .next (s.faulted .stackOverflow)) ∨
    (∃ t, s.push s.pc = some t ∧ execCall nnn s = .next (t.setPc (callTarget nnn))) := by
  simp only [execCall]
  cases h : s.push s.pc with
  | none => exact .inl ⟨push_eq_none_iff.mp h, rfl⟩
  | some t => exact .inr ⟨t, rfl, rfl⟩

/-- Everything RET can do (R133). -/
theorem execRet_cases (s : State) :
    (s.sp.val = 0 ∧ execRet s = .next (s.faulted .stackUnderflow)) ∨
    (∃ w t, s.pop = some (w, t) ∧ execRet s = .next (t.setPc w)) := by
  simp only [execRet]
  cases h : s.pop with
  | none => exact .inl ⟨pop_eq_none_iff.mp h, rfl⟩
  | some wt => exact .inr ⟨wt.1, wt.2, rfl, rfl⟩

/-- Everything a step can do (R90, R95). -/
theorem step_eq (s : State) :
    (s.status.state ≠ .running ∧ step s = .next s) ∨
    (s.status.state = .running ∧ s.fetchWord = none ∧
      step s = .next (s.faulted .outOfBounds)) ∨
    (∃ w e, s.status.state = .running ∧ s.fetchWord = some w ∧ decodeWord w = .error e ∧
      step s = .next (s.advancePc.faulted .unimplementedOpcode)) ∨
    (∃ w i, s.status.state = .running ∧ s.fetchWord = some w ∧ decodeWord w = .ok i ∧
      step s = exec i s.advancePc) := by
  cases hr : s.status.state with
  | idle => exact .inl ⟨by simp, by simp [step, hr, stopped]⟩
  | halted => exact .inl ⟨by simp, by simp [step, hr, stopped]⟩
  | faulted => exact .inl ⟨by simp, by simp [step, hr, stopped]⟩
  | running =>
    right
    cases hf : s.fetchWord with
    | none => exact .inl ⟨rfl, rfl, by simp [step, hr, hf, raise]⟩
    | some w =>
      right
      cases hd : decodeWord w with
      | error e => exact .inl ⟨w, e, rfl, rfl, hd, by simp [step, hr, hf, hd, raise]⟩
      | ok i => exact .inr ⟨w, i, rfl, rfl, hd, by simp [step, hr, hf, hd]⟩

/-- After a fetch the advance does not wrap (R27, R92). -/
theorem advancePc_toNat {s : State} (h : s.pc.toNat ≤ 4094) :
    s.advancePc.pc.toNat = s.pc.toNat + 2 := by
  have h2 : (2 : Word).toNat = 2 := rfl
  rw [State.advancePc_pc, BitVec.toNat_add, h2]
  omega

/-! ### What a step is about to run -/

/-- A step whose fetch gives an instruction is that instruction's meaning past its word. -/
theorem Fetches.step_eq_exec {s : State} {i : Instr} (h : Fetches s i) :
    step s = exec i s.advancePc := by
  obtain ⟨hr, w, hf, hd⟩ := h
  simp [step, hr, hf, hd]

theorem Fetches.pc_le {s : State} {i : Instr} (h : Fetches s i) : s.pc.toNat ≤ 4094 := by
  obtain ⟨-, w, hf, -⟩ := h
  exact pc_le_of_fetchWord hf

/-- A state fetches at most one instruction. -/
theorem Fetches.unique {s : State} {i j : Instr} (hi : Fetches s i) (hj : Fetches s j) :
    i = j := by
  obtain ⟨-, w, hf, hd⟩ := hi
  obtain ⟨-, w', hf', hd'⟩ := hj
  rw [hf] at hf'
  cases hf'
  rw [hd] at hd'
  cases hd'
  rfl

/-- The cases of a step, with what each leaves: everything a step can do. -/
inductive StepCase (s : State) : State → Prop where
  | stopped (hr : s.status.state ≠ .running) : StepCase s s
  | outOfBounds (hr : s.status.state = .running) (hp : 4094 < s.pc.toNat) :
      StepCase s (s.faulted .outOfBounds)
  | unimplemented (w : Word) (e : Reject) (hr : s.status.state = .running)
      (hf : s.fetchWord = some w) (hd : decodeWord w = .error e) :
      StepCase s (s.advancePc.faulted .unimplementedOpcode)
  | alu (i : Instr) (x : Reg) (o : AluOut) (hF : Fetches s i) (hx : i.dest = some x)
      (ho : o.flag.isSome = true → i.writesFlag = true) :
      StepCase s (s.advancePc.writeBack x o)
  | halt (hF : Fetches s .halt) : StepCase s (s.advancePc.setRunState .halted)
  | underflow (hF : Fetches s .ret) (h0 : s.sp.val = 0) :
      StepCase s (s.advancePc.faulted .stackUnderflow)
  | ret (t : State) (k : Fin 16) (hF : Fetches s .ret) (hs : s.sp.val = k.val + 1)
      (hsp : t.sp.val = k.val) (hpc : t.pc = s.stackAt k) (hstack : t.stack = s.stack)
      (hv : t.v = s.v) (hm : t.mem = s.mem) (hst : t.status = s.status) : StepCase s t
  | overflow (a : Addr) (hF : Fetches s (.call a)) (h16 : s.sp.val = 16) :
      StepCase s (s.advancePc.faulted .stackOverflow)
  | call (t : State) (a : Addr) (k : Fin 16) (hF : Fetches s (.call a)) (hs : s.sp.val = k.val)
      (hsp : t.sp.val = k.val + 1) (htop : t.stackAt k = s.advancePc.pc)
      (hstack : ∀ j, j ≠ k → t.stackAt j = s.stackAt j) (hpc : t.pc = callTarget a)
      (hv : t.v = s.v) (hm : t.mem = s.mem) (hst : t.status = s.status) : StepCase s t

/-- Every step that answers a next state is one of the cases. -/
theorem step_cases {s t : State} (h : step s = .next t) : StepCase s t := by
  rcases step_eq s with ⟨hr, e⟩ | ⟨hr, hf, e⟩ | ⟨w, e', hr, hf, hd, e⟩ | ⟨w, i, hr, hf, hd, e⟩ <;>
    rw [e] at h
  · cases h
    exact .stopped hr
  · cases h
    exact .outOfBounds hr (fetchWord_eq_none_iff.mp hf)
  · cases h
    exact .unimplemented w e' hr hf hd
  · have hF : Fetches s i := ⟨hr, w, hf, hd⟩
    cases hx : i.dest with
    | some x =>
      obtain ⟨o, ho, h'⟩ := exec_alu hx s.advancePc
      rw [h'] at h
      cases h
      exact .alu i x o hF hx ho
    | none =>
      cases i <;> simp only [Instr.dest, reduceCtorEq] at hx
      · cases h
        exact .halt hF
      · change execRet _ = _ at h
        rcases execRet_cases s.advancePc with ⟨h0, h'⟩ | ⟨w, u, hp, h'⟩ <;> rw [h'] at h <;> cases h
        · exact .underflow hF h0
        · obtain ⟨k, h1, h2, h3, h4, h5, h6, -, h8⟩ := pop_cases hp
          exact .ret _ k hF h1 h3 h2 h4 h5 h6 h8
      · rename_i a
        change execCall a _ = _ at h
        rcases execCall_cases a s.advancePc with ⟨h0, h'⟩ | ⟨u, hp, h'⟩ <;> rw [h'] at h <;> cases h
        · exact .overflow a hF h0
        · obtain ⟨hlt, h1, h2, h3, h4, h5, -, h7⟩ := push_cases hp
          exact .call _ a ⟨_, hlt⟩ hF rfl h1 h2 (fun j hj => h3 j fun e => hj (Fin.ext e)) rfl
            h4 h5 h7

/-! ### Runs -/

@[simp] theorem runFor_zero (s : State) : runFor 0 s = .next s := rfl

theorem runFor_succ {s t : State} (k : Nat) (h : step s = .next t) :
    runFor (k + 1) s = runFor k t := by
  simp [runFor, h]

/-- A core that is not `Running` stays as it is, for any number of steps. -/
theorem runFor_stopped {s : State} (h : s.status.state ≠ .running) (k : Nat) :
    runFor k s = .next s := by
  induction k with
  | zero => rfl
  | succ k ih =>
    have hs : step s = .next s := by
      rcases step_eq s with ⟨-, e⟩ | ⟨hr, -⟩ | ⟨_, _, hr, -⟩ | ⟨_, _, hr, -⟩
      · exact e
      all_goals exact absurd hr h
    rw [runFor_succ k hs, ih]

/-- Runs compose. -/
theorem runFor_add {s t : State} {j : Nat} (k : Nat) (h : runFor j s = .next t) :
    runFor (j + k) s = runFor k t := by
  induction j generalizing s with
  | zero => cases h; rw [Nat.zero_add]
  | succ j ih =>
    rw [Nat.succ_add]
    cases hs : step s with
    | next u => rw [runFor_succ _ hs]; rw [runFor_succ _ hs] at h; exact ih h
    | fault r => simp [runFor, hs] at h
    | refused r => simp [runFor, hs] at h

end Sys2Proof.Machine
end

