-- ==== Sys2Proof/Tests/Slice0.lean ====
section
/-! SUPPORT. The model's own tests: decoding of words written out from spec/30_encoding.md, the
ill-formed operands and words that the checks refuse, single steps whose results are the vectors of
spec/95_test_vectors.md (their ids are named), and for every statement with hypotheses a witness
that meets them. -/

namespace Sys2Proof.Tests

open Sys2Proof.Machine

/-! ### Small states -/

/-- Reset, the listed registers written, and the word at address 0 in a running core: the start
of a single-instruction vector. -/
def start (w : Nat) (regs : List (Reg × Byte)) : State :=
  (regs.foldl (fun s p => s.setV p.1 p.2) State.reset).withFetchWord 16 w

/-- The word at address `p`, with that stack pointer and those stack entries. -/
def startAt (w : Nat) (p : Word) (sp : Fin 17) (entries : List (Fin 16 × Word)) : State :=
  let stack := entries.foldl (fun st e => st.set e.1.val e.2) State.reset.stack
  State.withFetchWord { State.reset with pc := p, sp := sp, stack := stack } 16 w

/-- A second word placed in memory. -/
def withWord (s : State) (a w : Nat) : State :=
  { s with mem := Memory.writeBytes s.mem a (wordBytes (BitVec.ofNat 16 w)) }

/-- The state after one step. -/
def after (s : State) : State :=
  match step s with
  | .next t => t
  | .fault _ => s
  | .refused _ => s

/-- The outcome is a next state. -/
def isNext (o : Host.Outcome State Fault Refusal) : Bool :=
  match o with
  | .next _ => true
  | .fault _ => false
  | .refused _ => false

/-- A step that answers a next state answers `after`. -/
theorem step_after {s : State} (h : isNext (step s) = true) : step s = .next (after s) := by
  unfold after
  cases hs : step s with
  | next t => rfl
  | fault r => rw [hs] at h; cases h
  | refused r => rw [hs] at h; cases h

/-! ### Well-formedness: what each check refuses (R22, R71, R79) -/

theorem test_reg_range : fitsReg 15 = true ∧ fitsReg 16 = false := by decide

theorem test_addr_range : fitsAddr 4095 = true ∧ fitsAddr 4096 = false := by decide

/-- One word at each end of each unimplemented range of R79. -/
theorem test_unimplemented_ranges :
    ∀ w ∈ [0x0001, 0x00ED, 0x00EF, 0x0FFF, 0x1000, 0x1FFF, 0x3000, 0x7FFF, 0x8008, 0x8FF9,
      0x812A, 0x812B, 0x812C, 0x812D, 0x8FFF, 0x9000, 0xFFFF],
      decodeTableWord 16 w = none := by decide

theorem test_too_few_bytes : decode [] = .error .tooFewBytes ∧ decode [0x00] = .error .tooFewBytes :=
  ⟨rfl, rfl⟩

theorem test_rest_is_kept : decode [0x80, 0x14, 0x00, 0xEE] = .ok (.add 0 1, [0x00, 0xEE]) := by rfl

/-! ### Decoding: a word of every instruction, from the patterns of R76 -/

theorem test_decode_halt : decodeTableWord 16 0b0000000000000000 = some .halt := by decide
theorem test_decode_ret : decodeTableWord 16 0b0000000011101110 = some .ret := by decide
theorem test_decode_call : decodeTableWord 16 0b0010101010111100 = some (.call 0xABC) := by decide
theorem test_decode_mov : decodeTableWord 16 0b1000101010110000 = some (.mov 10 11) := by decide
theorem test_decode_or : decodeTableWord 16 0b1000000100100001 = some (.or 1 2) := by decide
theorem test_decode_and : decodeTableWord 16 0b1000000100100010 = some (.and 1 2) := by decide
theorem test_decode_xor : decodeTableWord 16 0b1000000100100011 = some (.xor 1 2) := by decide
theorem test_decode_add : decodeTableWord 16 0b1000000100100100 = some (.add 1 2) := by decide
theorem test_decode_sub : decodeTableWord 16 0b1000000100100101 = some (.sub 1 2) := by decide
theorem test_decode_shr : decodeTableWord 16 0b1000111100000110 = some (.shr 15 0) := by decide
theorem test_decode_rsub : decodeTableWord 16 0b1000000100100111 = some (.rsub 1 2) := by decide
theorem test_decode_shl : decodeTableWord 16 0b1000000100101110 = some (.shl 1 2) := by decide

/-- The rows of the instruction list do not overlap (R74). -/
theorem test_rows_disjoint : opcodeTable.Pairwise
    (fun r r' => r.pattern &&& r'.mask ≠ r'.pattern &&& r.mask) := by decide

/-! ### Fetch (vectors F1 to F7) -/

theorem test_fetch_odd :
    (startAt 0x8014 0x101 0 []).fetchWord = some 0x8014 ∧
    (after (startAt 0x8014 0x101 0 [])).pc = 0x103 := by decide

theorem test_fetch_top :
    (after (startAt 0x0000 4094 0 [])).pc = 4096 ∧
    (after (startAt 0x0000 4095 0 [])).status = ⟨.faulted, some .outOfBounds⟩ ∧
    (after (startAt 0x0000 0xFFFF 0 [])).pc = 0xFFFF := by decide

/-! ### ALU: at most two steps an instruction, by vector id -/

/-- A1, A3. -/
theorem test_mov :
    (after (start 0x8010 [(0, 17), (1, 42)])).getV 0 = 42 ∧
    (after (start 0x8F10 [(1, 153), (15, 1)])).getV 15 = 153 := by decide

/-- A7: `VF` is not cleared. -/
theorem test_or : (after (start 0x8011 [(0, 240), (1, 15), (15, 1)])).getV 0 = 255 ∧
    (after (start 0x8011 [(0, 240), (1, 15), (15, 1)])).getV 15 = 1 := by decide

/-- A10, A11. -/
theorem test_and : (after (start 0x8012 [(0, 12), (1, 10)])).getV 0 = 8 ∧
    (after (start 0x8012 [(0, 255), (1, 0), (15, 1)])).getV 15 = 1 := by decide

/-- A14, A15. -/
theorem test_xor : (after (start 0x8003 [(0, 90), (15, 1)])).getV 0 = 0 ∧
    (after (start 0x8013 [(0, 170), (1, 255)])).getV 0 = 85 := by decide

/-- A22 and A21: a sum of 255 fits, a sum of 256 carries and is not stored. -/
theorem test_add_boundary :
    (after (start 0x8014 [(0, 254), (1, 1), (15, 1)])).getV 0 = 255 ∧
    (after (start 0x8014 [(0, 254), (1, 1), (15, 1)])).getV 15 = 0 ∧
    (after (start 0x8014 [(0, 255), (1, 1)])).getV 0 = 255 ∧
    (after (start 0x8014 [(0, 255), (1, 1)])).getV 15 = 1 := by decide

/-- A29, A30, A31: `x` = 15 and `y` = 15. -/
theorem test_add_flag_register :
    (after (start 0x8F14 [(15, 200), (1, 55)])).getV 15 = 255 ∧
    (after (start 0x8F14 [(15, 200), (1, 56)])).getV 15 = 1 ∧
    (after (start 0x80F4 [(0, 10), (15, 1)])).getV 0 = 11 := by decide

/-- A42, A41. -/
theorem test_sub_boundary :
    (after (start 0x8015 [(0, 7), (1, 7)])).getV 15 = 1 ∧
    (after (start 0x8015 [(0, 3), (1, 10)])).getV 0 = 3 ∧
    (after (start 0x8015 [(0, 3), (1, 10), (15, 1)])).getV 15 = 0 := by decide

/-- A47, A49. -/
theorem test_sub_flag_register :
    (after (start 0x8F15 [(15, 9), (1, 4)])).getV 15 = 5 ∧
    (after (start 0x8FF5 [(15, 9)])).getV 15 = 0 := by decide

/-- A63, A64, A65. -/
theorem test_shr : (after (start 0x8006 [(0, 255)])).getV 0 = 127 ∧
    (after (start 0x8006 [(0, 128), (15, 1)])).getV 15 = 0 ∧
    (after (start 0x8016 [(0, 6), (1, 255)])).getV 0 = 3 := by decide

/-- A66. -/
theorem test_shr_flag_register : (after (start 0x8F06 [(15, 7)])).getV 15 = 3 := by decide

/-- A51, A55. -/
theorem test_rsub : (after (start 0x8017 [(0, 3), (1, 10)])).getV 0 = 7 ∧
    (after (start 0x8017 [(0, 1), (1, 0), (15, 1)])).getV 15 = 0 := by decide

/-- A57, A58. -/
theorem test_rsub_flag_register : (after (start 0x8F17 [(15, 4), (1, 9)])).getV 15 = 5 ∧
    (after (start 0x8F17 [(15, 9), (1, 4)])).getV 15 = 0 := by decide

/-- A71, A74: the flag is bit 0, not bit 7. -/
theorem test_shl : (after (start 0x800E [(0, 128), (15, 1)])).getV 0 = 0 ∧
    (after (start 0x800E [(0, 128), (15, 1)])).getV 15 = 0 ∧
    (after (start 0x800E [(0, 1)])).getV 15 = 1 := by decide

/-- A77. -/
theorem test_shl_flag_register : (after (start 0x8F0E [(15, 129)])).getV 15 = 2 := by decide

/-! ### CALL, RET and HALT -/

/-- K2, K3. -/
theorem test_call :
    (after (startAt 0x2ABC 0x300 3 [])).stackAt 3 = 0x302 ∧
    (after (startAt 0x2ABC 0x300 3 [])).pc = 0xABC ∧
    (after (startAt 0x2000 0x010 15 [])).sp = 16 := by decide

/-- K4. -/
theorem test_call_overflow :
    (after (startAt 0x2000 0x010 16 [])).status = ⟨.faulted, some .stackOverflow⟩ ∧
    (after (startAt 0x2000 0x010 16 [])).pc = 0x012 := by decide

/-- K9. -/
theorem test_ret :
    (after (startAt 0x00EE 0x200 16 [(15, 0x044)])).pc = 0x044 ∧
    (after (startAt 0x00EE 0x200 16 [(15, 0x044)])).sp = 15 ∧
    (after (startAt 0x00EE 0x200 16 [(15, 0x044)])).stackAt 15 = 0x044 := by decide

/-- K8, the source's S11. -/
theorem test_ret_underflow :
    (after (startAt 0x00EE 0 0 [])).status = ⟨.faulted, some .stackUnderflow⟩ ∧
    (after (startAt 0x00EE 0 0 [])).pc = 2 ∧ (after (startAt 0x00EE 0 0 [])).sp = 0 := by decide

/-- X2. -/
theorem test_halt :
    (after (startAt 0x0000 0x050 2 [])).status = ⟨.halted, none⟩ ∧
    (after (startAt 0x0000 0x050 2 [])).pc = 0x052 ∧
    (after (startAt 0x0000 0x050 2 [])).sp = 2 := by decide

/-- X7. -/
theorem test_unimplemented :
    (after (start 0x8018 [(0, 1), (1, 2)])).status = ⟨.faulted, some .unimplementedOpcode⟩ ∧
    (after (start 0x8018 [(0, 1), (1, 2)])).getV 0 = 1 ∧
    (after (start 0x8018 [(0, 1), (1, 2)])).pc = 2 := by decide

/-! ### Host -/

/-- X5, X8, X9. -/
theorem test_host :
    serve .run (after (startAt 0x00EE 0 0 [])) = some (after (startAt 0x00EE 0 0 [])) ∧
    serve .reset (start 0x8014 []) = some State.reset ∧
    serve (.writeMem 0 1) (start 0x8014 []) = none := by decide

/-- Writing 0 removes an entry, so equal memories are equal lists. -/
theorem test_memory_canonical :
    Memory.write (Memory.write [] 7 1) 3 2 = [(3, 2), (7, 1)] ∧
    Memory.write [(3, 2), (7, 1)] 3 0 = [(7, 1)] := by decide

theorem test_memory_ill_formed :
    Memory.wf [(7, 1), (3, 2)] = false ∧ Memory.wf [(3, 0)] = false ∧
    Memory.wf [(4096, 1)] = false := by decide

/-! ### Witnesses: for each statement with hypotheses, concrete data that meet them -/

/-- The concrete form of `Fetches`. -/
theorem fetches_of {s : State} {i : Instr} (w : Word) (hr : s.status.state = .running)
    (hf : s.fetchWord = some w) (hd : decodeWord w = .ok i) : Fetches s i := ⟨hr, w, hf, hd⟩

theorem witness_DecodeOfEncodeIsTheInstruction :
    (Instr.call 0xFFF).wellFormed = true ∧ (Instr.shl 15 15).wellFormed = true := by decide

theorem witness_EncodeOfDecodeIsTheWord : decodeWord 0x812E#16 = .ok (.shl 1 2) := by rfl

theorem witness_MatchAndMaskSelectTheInstruction :
    (∃ r ∈ opcodeTable, 0x8FFE#16 &&& r.mask = r.pattern) ∧
    decodeWord 0x8FFE#16 = .ok (.shl 15 15) := ⟨by decide, rfl⟩

/-- Each clause at both ends of its range. -/
theorem witness_DispatchFollowsTheOpcodeMap :
    (0#16).toNat = 0 ∧ (0xEE#16).toNat = 0xEE ∧
    (∀ w ∈ [0x2000#16, 0x2FFF#16], w.toNat / 4096 = 2) ∧
    (∀ w ∈ [0x8000#16, 0x8FFF#16], w.toNat / 4096 = 8) ∧
    (15 : Reg).val = (0x8FFF#16).toNat / 256 % 16 ∧ (15 : Reg).val = (0x8FFF#16).toNat / 16 % 16 ∧
    (0x8FF7#16).toNat % 16 = 7 ∧ (0x8FFE#16).toNat % 16 = 14 ∧
    (∀ w ∈ [0x8FF8#16, 0x8FFD#16, 0x8FFF#16], w.toNat % 16 ∉ [0, 1, 2, 3, 4, 5, 6, 7, 14]) ∧
    (∀ w ∈ [0x0001#16, 0x00ED#16, 0x00EF#16, 0x1FFF#16, 0x3000#16, 0x7FFF#16, 0x9000#16, 0xFFFF#16],
      w.toNat ≠ 0 ∧ w.toNat ≠ 0xEE ∧ w.toNat / 4096 ≠ 2 ∧ w.toNat / 4096 ≠ 8) := by
  simp

theorem witness_FetchIsBigEndian :
    (startAt 0x8014 4094 0 []).pc.toNat ≤ 4094 ∧ (startAt 0x8014 0x101 0 []).pc.toNat ≤ 4094 := by
  decide

theorem witness_StepRunsTheDecodedInstruction :
    let s := startAt 0x8014 4094 0 []
    s.status.state = .running ∧ s.pc.toNat ≤ 4094 ∧ (Instr.add 0 1).wellFormed = true ∧
    decode [s.read s.pc.toNat, s.read (s.pc.toNat + 1)] = .ok (.add 0 1, []) :=
  ⟨rfl, by decide, rfl, rfl⟩

theorem witness_PlacedInstructionRunsNext :
    Memory.wf State.reset.mem = true ∧ State.reset.pc.toNat ≤ 4094 := by decide

theorem witness_UnlistedWordRaisesUnimplementedOpcode :
    let s := startAt 0x1200 2 0 []
    s.status.state = .running ∧ s.fetchWord = some 0x1200 ∧
    ∀ r ∈ opcodeTable, 0x1200#16 &&& r.mask ≠ r.pattern := ⟨rfl, rfl, by decide⟩

theorem witness_FetchBeyondMemoryRaisesOutOfBounds :
    (startAt 0 4095 0 []).status.state = .running ∧ 4094 < (startAt 0 4095 0 []).pc.toNat ∧
    4094 < (startAt 0 0xFFFF 0 []).pc.toNat := by decide

theorem witness_StoppedCoreChangesNothing :
    State.reset.status.state ≠ .running ∧
    (after (startAt 0 0 0 [])).status.state = .halted ∧
    (after (startAt 0x00EE 0 0 [])).status.state = .faulted := by decide

/-- The three outcomes: continue, halt, fault. -/
theorem witness_StepHasExactlyThreeOutcomes :
    (∀ w ∈ [0x8014, 0x0000, 0x1200],
      (start w []).status.state = .running ∧ (start w []).status.cause = none) ∧
    (after (start 0x8014 [])).status.state = .running ∧
    (after (start 0x0000 [])).status.state = .halted ∧
    (after (start 0x1200 [])).status.state = .faulted := by decide

/-- Each of the four faults arises in a step of a running core with no cause. -/
theorem witness_FaultsArisePreciselyFromTheirConditions :
    (startAt 0x2000 0 16 []).status = ⟨.running, none⟩ ∧
    step (startAt 0x2000 0 16 []) = .next (after (startAt 0x2000 0 16 [])) ∧
    (after (startAt 0x2000 0 16 [])).status.cause = some .stackOverflow ∧
    step (startAt 0x00EE 0 0 []) = .next (after (startAt 0x00EE 0 0 [])) ∧
    (after (startAt 0x00EE 0 0 [])).status.cause = some .stackUnderflow ∧
    step (startAt 0 4095 0 []) = .next (after (startAt 0 4095 0 [])) ∧
    (after (startAt 0 4095 0 [])).status.cause = some .outOfBounds ∧
    step (startAt 0x9120 0 0 []) = .next (after (startAt 0x9120 0 0 [])) ∧
    (after (startAt 0x9120 0 0 [])).status.cause = some .unimplementedOpcode :=
  ⟨by decide, step_after (by decide), by decide, step_after (by decide), by decide,
    step_after (by decide), by decide, step_after (by decide), by decide⟩

/-- One state for each clause: an ALU word, HALT, CALL below and at capacity, RET with and without
an entry. -/
theorem witness_StepLeavesPcAsTheTableSays :
    Fetches (start 0x8014 []) (.add 0 1) ∧ Fetches (start 0 []) .halt ∧
    Fetches (startAt 0x2FFF 0 15 []) (.call 0xFFF) ∧
    Fetches (startAt 0x2FFF 0 16 []) (.call 0xFFF) ∧
    Fetches (startAt 0x00EE 0 16 []) .ret ∧ (startAt 0x00EE 0 16 []).sp.val = (15 : Fin 16).val + 1 ∧
    Fetches (startAt 0x00EE 0 0 []) .ret :=
  ⟨fetches_of 0x8014 (by decide) (by decide) rfl, fetches_of 0 rfl rfl rfl, fetches_of 0x2FFF (by decide) (by decide) rfl,
    fetches_of 0x2FFF (by decide) (by decide) rfl, fetches_of 0x00EE (by decide) (by decide) rfl, rfl, fetches_of 0x00EE (by decide) (by decide) rfl⟩

theorem witness_ShiftsIgnoreTheFieldY :
    decodeWord 0x8106#16 = .ok (.shr 1 0) ∧ decodeWord 0x81F6#16 = .ok (.shr 1 15) ∧
    (0x8106#16).toNat / 4096 = 8 ∧ (0x8106#16).toNat % 16 = 6 ∧
    0x8106#16 &&& 0xFF0F#16 = 0x81F6#16 &&& 0xFF0F#16 ∧
    decodeWord 0x810E#16 = .ok (.shl 1 0) ∧ (0x810E#16).toNat % 16 = 14 :=
  ⟨rfl, rfl, rfl, rfl, rfl, rfl, rfl⟩

theorem witness_FlagIsZeroOrOne :
    (Instr.rsub 14 15).dest = some 14 ∧ (14 : Reg) ≠ 15 ∧ (Instr.rsub 14 15).writesFlag = true ∧
    ∃ t, exec (.rsub 14 15) State.reset = .next t := ⟨rfl, by decide, rfl, _, rfl⟩

/-- Both clauses: an unimplemented minor opcode and an implemented one. -/
theorem witness_AluWordsRaiseNoOtherFault :
    (Instr.mov 0 0).isAlu = true ∧
    (∀ w ∈ [0x8FFF#16, 0x8008#16, 0x8000#16, 0x8FFE#16], w.toNat / 4096 = 8) ∧
    (start 0x8FFF []).status.state = .running ∧ (start 0x8FFF []).fetchWord = some 0x8FFF ∧
    (start 0x8FFE []).status.state = .running ∧ (start 0x8FFE []).fetchWord = some 0x8FFE :=
  ⟨rfl, by simp, by decide, by decide, by decide, by decide⟩

/-- An empty, an almost full and a full stack. -/
theorem witness_CallPushesAndJumpsUnlessTheStackIsFull :
    (startAt 0x2000 0 0 []).sp.val = (0 : Fin 16).val ∧
    (startAt 0x2000 0 15 []).sp.val = (15 : Fin 16).val ∧
    (startAt 0x2000 0 16 []).sp.val = 16 := by decide

theorem witness_RetPopsUnlessTheStackIsEmpty :
    (startAt 0x00EE 0 1 []).sp.val = (0 : Fin 16).val + 1 ∧
    (startAt 0x00EE 0 16 []).sp.val = (15 : Fin 16).val + 1 ∧
    (startAt 0x00EE 0 0 []).sp.val = 0 := by decide

theorem witness_HaltOnlyEndsTheRun :
    (startAt 0 4094 0 []).status.state = .running ∧ (startAt 0 4094 0 []).fetchWord = some 0 := by
  decide

theorem witness_CallOnAFullStackRaisesStackOverflow :
    (Fetches (startAt 0x2FFF 0 16 []) (.call 0xFFF) ∧ (startAt 0x2FFF 0 16 []).sp.val = 16) ∧
    (Fetches (start 0x8014 []) (.add 0 1) ∧ (∀ a, Instr.add 0 1 ≠ .call a) ∧
      (start 0x8014 []).status.cause = none ∧ step (start 0x8014 []) = .next (after (start 0x8014 []))) :=
  ⟨⟨fetches_of 0x2FFF (by decide) (by decide) rfl, rfl⟩, fetches_of 0x8014 (by decide) (by decide) rfl, nofun, rfl, step_after (by decide)⟩

theorem witness_RetOnAnEmptyStackRaisesStackUnderflow :
    (Fetches (startAt 0x00EE 0 0 []) .ret ∧ (startAt 0x00EE 0 0 []).sp.val = 0) ∧
    (Fetches (start 0x8014 []) (.add 0 1) ∧ Instr.add 0 1 ≠ .ret ∧
      (start 0x8014 []).status.cause = none ∧ step (start 0x8014 []) = .next (after (start 0x8014 []))) :=
  ⟨⟨fetches_of 0x00EE (by decide) (by decide) rfl, rfl⟩, fetches_of 0x8014 (by decide) (by decide) rfl, nofun, rfl,
    step_after (by decide)⟩

/-- CALL 0x010 at 0, CALL 0x020 at 0x010, RET at 0x020 and at 0x012: the shape of program P5. -/
def nested : State := withWord (withWord (withWord (start 0x2010 []) 0x010 0x2020) 0x020 0x00EE) 0x012 0x00EE

/-- CALL 0x010 at 0 and RET there, with fifteen live entries. -/
def callReturn : State := withWord (startAt 0x2010 0 15 []) 0x010 0x00EE

theorem witness_CallThenReturnRestoresPcAndSp :
    (Fetches callReturn (.call 0x010) ∧ callReturn.sp.val < 16 ∧
      step callReturn = .next (after callReturn) ∧ Fetches (after callReturn) .ret ∧
      step (after callReturn) = .next (after (after callReturn))) ∧
    (nested.sp.val = 0 ∧ Fetches nested (.call 0x010) ∧ step nested = .next (after nested) ∧
      Fetches (after nested) (.call 0x020) ∧ step (after nested) = .next (after (after nested)) ∧
      Fetches (after (after nested)) .ret ∧
      step (after (after nested)) = .next (after (after (after nested))) ∧
      Fetches (after (after (after nested))) .ret ∧
      step (after (after (after nested))) = .next (after (after (after (after nested))))) :=
  ⟨⟨fetches_of 0x2010 (by decide) (by decide) rfl, by decide, step_after (by decide),
      fetches_of 0x00EE (by decide) (by decide) rfl, step_after (by decide)⟩,
    by decide, fetches_of 0x2010 (by decide) (by decide) rfl, step_after (by decide),
    fetches_of 0x2020 (by decide) (by decide) rfl, step_after (by decide),
    fetches_of 0x00EE (by decide) (by decide) rfl, step_after (by decide),
    fetches_of 0x00EE (by decide) (by decide) rfl, step_after (by decide)⟩

/-- The outer call of `nested`: two deep steps, then the return to depth 0. -/
theorem witness_CallStackIsLastInFirstOut :
    let t := after nested
    Fetches nested (.call 0x010) ∧ nested.sp.val < 16 ∧ step nested = .next t ∧
    (∀ j, j ≤ 2 → ∃ v, runFor j t = .next v ∧ nested.sp.val < v.sp.val) ∧
    runFor (2 + 1) t = .next (after (after (after t))) ∧
    (after (after (after t))).sp.val = nested.sp.val := by
  have h1 : step nested = .next (after nested) := step_after (by decide)
  have h2 : step (after nested) = .next (after (after nested)) := step_after (by decide)
  have h3 : step (after (after nested)) = .next (after (after (after nested))) :=
    step_after (by decide)
  have h4 : step (after (after (after nested))) = .next (after (after (after (after nested)))) :=
    step_after (by decide)
  refine ⟨fetches_of 0x2010 (by decide) (by decide) rfl, by decide, h1, ?_, ?_, by decide⟩
  · intro j hj
    obtain rfl | rfl | rfl : j = 0 ∨ j = 1 ∨ j = 2 := by omega
    · exact ⟨after nested, rfl, by decide⟩
    · exact ⟨after (after nested), by rw [runFor_succ 0 h2]; rfl, by decide⟩
    · exact ⟨after (after (after nested)), by rw [runFor_succ 1 h2, runFor_succ 0 h3]; rfl,
        by decide⟩
  · rw [runFor_succ 2 h2, runFor_succ 1 h3, runFor_succ 0 h4]
    rfl

theorem witness_NoRunWritesMemory :
    runFor 1 (start 0x8014 []) = .next (after (start 0x8014 [])) :=
  runFor_succ 0 (step_after (by decide))

/-- A step that changes a register, one that changes the stack, and a host write. -/
theorem witness_EachElementHasOnlyItsWriters :
    step (start 0x8010 [(1, 1)]) = .next (after (start 0x8010 [(1, 1)])) ∧
    (after (start 0x8010 [(1, 1)])).getV 0 ≠ (start 0x8010 [(1, 1)]).getV 0 ∧
    step (start 0x2100 []) = .next (after (start 0x2100 [])) ∧
    (after (start 0x2100 [])).sp ≠ (start 0x2100 []).sp ∧
    (after (start 0x2100 [])).stack ≠ (start 0x2100 []).stack ∧
    (after (start 0 [])).status ≠ (start 0 []).status ∧ step (start 0 []) = .next (after (start 0 [])) ∧
    serve (.writeV 0 1) State.reset = some (State.reset.setV 0 1) :=
  ⟨step_after (by decide), by decide, step_after (by decide), by decide, by decide, by decide,
    step_after (by decide), rfl⟩

/-- A RET with a live entry at each end of its range. -/
def twoEntries : State := startAt 0x00EE 0 2 [(0, 2), (1, 4096)]

theorem twoEntries_inv : MachineInv twoEntries := by
  refine ⟨by decide, by unfold StatusConsistent; decide, ?_⟩
  intro k hk
  obtain rfl | rfl : k = 0 ∨ k = 1 := by
    have : k.val < 2 := hk
    omega
  · decide
  · decide

theorem witness_EveryStepKeepsInv :
    MachineInv twoEntries ∧ step twoEntries = .next (after twoEntries) :=
  ⟨twoEntries_inv, step_after (by decide)⟩

theorem witness_EveryHostRequestKeepsInv :
    MachineInv (after (startAt 0 0 0 [])) ∧
    serve (.writeMem 4095 255) (after (startAt 0 0 0 []))
      = some ((after (startAt 0 0 0 [])).writeMem 4095 255) :=
  ⟨⟨by decide, by unfold StatusConsistent; decide, fun _ h => absurd h (Nat.not_lt_zero _)⟩,
    by decide⟩

/-- A halted state, reached through the host's `run` request and a step. -/
theorem witness_EveryReachableStateSatisfiesInv :
    Reachable (after (runRequest State.reset)) ∧
    (after (runRequest State.reset)).status.state = .halted :=
  ⟨.step (.host .run .reset rfl) (step_after (by decide)), by decide⟩

theorem witness_PcStaysAtMost4096 :
    MachineInv twoEntries ∧ twoEntries.pc.toNat ≤ 4096 ∧
    runFor 1 twoEntries = .next (after twoEntries) ∧ twoEntries.fetchWord = some 0x00EE ∧
    (after twoEntries).pc = 4096 :=
  ⟨twoEntries_inv, by decide, runFor_succ 0 (step_after (by decide)), by decide, by decide⟩

/-- Both sides: a run that halts within its steps, and one that has not yet.  And a step of the
halting run that fetches 0x0000: its second, the last. -/
theorem witness_RunHaltsExactlyByFetchingZero :
    (start 0x8014 []).status.state = .running ∧
    runFor 1 (start 0x8014 []) = .next (after (start 0x8014 [])) ∧
    (after (start 0x8014 [])).status.state = .running ∧
    runFor 2 (start 0x8014 []) = .next (after (after (start 0x8014 []))) ∧
    (after (after (start 0x8014 []))).status.state = .halted ∧
    (after (start 0x8014 [])).fetchWord = some 0 :=
  ⟨by decide, runFor_succ 0 (step_after (by decide)), by decide,
    (runFor_succ 1 (step_after (by decide))).trans (runFor_succ 0 (step_after (by decide))),
    by decide, by decide⟩

/-- A run that ends in a halt, and one that ends in a fault. -/
theorem witness_EveryRunEnds :
    (start 0 []).status.state = .running ∧ runFor 1 (start 0 []) = .next (after (start 0 [])) ∧
    (after (start 0 [])).status.state = .halted ∧
    (start 0x00EE []).status.state = .running ∧
    runFor 1 (start 0x00EE []) = .next (after (start 0x00EE [])) ∧
    (after (start 0x00EE [])).status.state = .faulted :=
  ⟨by decide, runFor_succ 0 (step_after (by decide)), by decide, by decide,
    runFor_succ 0 (step_after (by decide)), by decide⟩

theorem witness_StraightRunEndsWithin2049Steps :
    (runRequest State.reset).pc.toNat = 0 ∧
    ∀ j u i, runFor j (runRequest State.reset) = .next u → Fetches u i →
      i ≠ .ret ∧ ∀ a, i ≠ .call a := by
  refine ⟨rfl, fun j u i hu hF => ?_⟩
  cases j with
  | zero =>
    cases hu
    rw [hF.unique (fetches_of (i := .halt) 0 rfl rfl rfl)]
    exact ⟨nofun, nofun⟩
  | succ j =>
    have hs : step (runRequest State.reset) = .next (after (runRequest State.reset)) :=
      step_after (by decide)
    rw [runFor_succ j hs, runFor_stopped (s := after (runRequest State.reset)) (by decide)] at hu
    cases hu
    exact absurd hF.1 (by decide)

theorem witness_RunRequestLoadsNothing :
    State.reset.status.state = .idle ∧ (after (start 0 [])).status.state = .halted := by decide

theorem witness_OnlyResetLeavesAFault :
    (after (start 0x00EE [])).status.state = .faulted ∧
    serve .reset (after (start 0x00EE [])) = some State.reset := by decide

theorem witness_HostWritesOneElementBetweenRuns :
    State.reset.status.state = .idle ∧ Memory.wf State.reset.mem = true ∧
    (after (start 0 [])).status.state = .halted ∧ (start 0 []).status.state = .running ∧
    (after (start 0x00EE [])).status.state = .faulted := by decide

end Sys2Proof.Tests
end

section
/-! ## Memory (spec/20_memory.md): the settled obligations -/

namespace Sys2Proof.Proofs
open Sys2Proof Sys2Proof.Machine

/-- Settles O9: below the bounds check the fetched word is `be16` of the bytes at `pc` and
`pc + 1` (R91), whose value and two halves are those of the big-endian combination (R54). -/
theorem fetchIsBigEndian : Obligations.FetchIsBigEndian := by
  unfold Obligations.FetchIsBigEndian
  intro s hpc
  exact ⟨_, fetchWord_of_le hpc, be16_toNat _ _, hiByte_be16 _ _, loByte_be16 _ _⟩

end Sys2Proof.Proofs
end

section
/-! ## Encoding (spec/30_encoding.md): the decoder on a word, case by case (R74) -/

namespace Sys2Proof.Proofs
open Sys2Proof

theorem decodeWord_of_toNat_zero {w : Word} (h : w.toNat = 0) : decodeWord w = .ok .halt := by
  obtain rfl : w = 0x0000#16 := BitVec.eq_of_toNat_eq h
  rfl

theorem decodeWord_of_toNat_ee {w : Word} (h : w.toNat = 0xEE) : decodeWord w = .ok .ret := by
  obtain rfl : w = 0x00EE#16 := BitVec.eq_of_toNat_eq h
  rfl

/-- The two fixed words have major opcode 0, so no other major opcode is one of them (R74: the
cases are mutually exclusive). -/
theorem ne_fixed_of_majorOf_ne_zero {w : Word} (h : majorOf w ≠ 0x0#4) :
    w ≠ 0x0000#16 ∧ w ≠ 0x00EE#16 :=
  ⟨by rintro rfl; exact h rfl, by rintro rfl; exact h rfl⟩

theorem decodeWord_of_majorOf_two {w : Word} (h : majorOf w = 0x2#4) :
    decodeWord w = .ok (.call (nnnOf w)) := by
  obtain ⟨hz, he⟩ := ne_fixed_of_majorOf_ne_zero (w := w) (by rw [h]; decide)
  rw [decodeWord, if_neg hz, if_neg he, if_pos h]

theorem decodeWord_of_majorOf_eight {w : Word} (h : majorOf w = 0x8#4) :
    decodeWord w = decodeAlu (minorOf w) (xOf w) (yOf w) := by
  obtain ⟨hz, he⟩ := ne_fixed_of_majorOf_ne_zero (w := w) (by rw [h]; decide)
  rw [decodeWord, if_neg hz, if_neg he, if_neg (by rw [h]; decide), if_pos h]

theorem decodeWord_of_unlisted {w : Word} (hz : w ≠ 0x0000#16) (he : w ≠ 0x00EE#16)
    (h2 : majorOf w ≠ 0x2#4) (h8 : majorOf w ≠ 0x8#4) :
    decodeWord w = .error .unimplementedOpcode := by
  rw [decodeWord, if_neg hz, if_neg he, if_neg h2, if_neg h8]

theorem majorOf_eq_iff {w : Word} {m : BitVec 4} : majorOf w = m ↔ w.toNat / 4096 = m.toNat := by
  rw [← majorOf_toNat, BitVec.toNat_inj]

/-- The ALU family with its minor opcode as a number: nine instructions, and no instruction for
the other seven minor opcodes. -/
theorem decodeAlu_cases (n : BitVec 4) (x y : Reg) :
    (n.toNat = 0 → decodeAlu n x y = .ok (.mov x y)) ∧
    (n.toNat = 1 → decodeAlu n x y = .ok (.or x y)) ∧
    (n.toNat = 2 → decodeAlu n x y = .ok (.and x y)) ∧
    (n.toNat = 3 → decodeAlu n x y = .ok (.xor x y)) ∧
    (n.toNat = 4 → decodeAlu n x y = .ok (.add x y)) ∧
    (n.toNat = 5 → decodeAlu n x y = .ok (.sub x y)) ∧
    (n.toNat = 6 → decodeAlu n x y = .ok (.shr x y)) ∧
    (n.toNat = 7 → decodeAlu n x y = .ok (.rsub x y)) ∧
    (n.toNat = 14 → decodeAlu n x y = .ok (.shl x y)) ∧
    (n.toNat ∉ [0, 1, 2, 3, 4, 5, 6, 7, 14] → decodeAlu n x y = .error .unimplementedOpcode) := by
  unfold decodeAlu
  refine ⟨?_, ?_, ?_, ?_, ?_, ?_, ?_, ?_, ?_, fun hn => ?other⟩
  case other => split <;> simp_all
  all_goals
    intro hn
    simp only [hn]

/-- Settles O7: the words 0x0000 and 0x00EE are fixed, the major opcode of every other word selects
its case of R74, and within the ALU family the minor opcode selects the instruction. -/
theorem dispatchFollowsTheOpcodeMap : Obligations.DispatchFollowsTheOpcodeMap := by
  unfold Obligations.DispatchFollowsTheOpcodeMap
  intro w
  refine ⟨decodeWord_of_toNat_zero, decodeWord_of_toNat_ee, fun h2 a ha => ?call,
    fun h8 x y hx hy => ?alu, fun hz he h2 h8 => ?unlisted⟩
  case call =>
    obtain rfl : a = nnnOf w := BitVec.eq_of_toNat_eq (ha.trans (nnnOf_toNat w).symm)
    exact decodeWord_of_majorOf_two (majorOf_eq_iff.2 h2)
  case alu =>
    obtain rfl : x = xOf w := Fin.ext (hx.trans (xOf_val w).symm)
    obtain rfl : y = yOf w := Fin.ext (hy.trans (yOf_val w).symm)
    rw [decodeWord_of_majorOf_eight (majorOf_eq_iff.2 h8), ← minorOf_toNat]
    exact decodeAlu_cases (minorOf w) (xOf w) (yOf w)
  case unlisted =>
    exact decodeWord_of_unlisted (mt (congrArg BitVec.toNat) hz) (mt (congrArg BitVec.toNat) he)
      (mt majorOf_eq_iff.1 h2) (mt majorOf_eq_iff.1 h8)

end Sys2Proof.Proofs
end

section
/-! ## Encoding (spec/30_encoding.md): the rows of the instruction list (R76) -/

namespace Sys2Proof.Proofs
open Sys2Proof

/-! ### A word that decodes is the word of its instruction -/

theorem formatA_nnnOf {w : Word} (h : majorOf w = 0x2#4) : formatA (nnnOf w) = w := by
  have hmajor : w.toNat / 4096 = 2 := majorOf_eq_iff.1 h
  apply BitVec.eq_of_toNat_eq
  rw [formatA_toNat, nnnOf_toNat]
  omega

theorem formatR_fields {w : Word} (h : majorOf w = 0x8#4) :
    formatR (xOf w) (yOf w) (minorOf w) = w := by
  have hmajor : w.toNat / 4096 = 8 := majorOf_eq_iff.1 h
  apply BitVec.eq_of_toNat_eq
  rw [formatR_toNat, xOf_val, yOf_val, minorOf_toNat]
  omega

theorem encode_of_decodeAlu {n : BitVec 4} {x y : Reg} {i : Instr}
    (h : decodeAlu n x y = .ok i) : encode i = formatR x y n := by
  unfold decodeAlu at h
  split at h
  case h_10 => cases h
  all_goals
    next hn =>
    cases h
    exact congrArg (formatR x y) (BitVec.eq_of_toNat_eq hn.symm)

theorem encode_of_decodeWord {w : Word} {i : Instr} (h : decodeWord w = .ok i) :
    encode i = w := by
  by_cases h2 : majorOf w = 0x2#4
  · rw [decodeWord_of_majorOf_two h2] at h
    cases h
    exact formatA_nnnOf h2
  by_cases h8 : majorOf w = 0x8#4
  · rw [decodeWord_of_majorOf_eight h8] at h
    exact (encode_of_decodeAlu h).trans (formatR_fields h8)
  rw [decodeWord, if_neg h2, if_neg h8] at h
  split_ifs at h with hz he
  · cases h
    exact hz.symm
  · cases h
    exact he.symm

/-! ### The rows -/

theorem row_mem_opcodeTable (i : Instr) : i.row ∈ opcodeTable := by
  cases i <;> simp [opcodeTable, Instr.row]

theorem exists_row_eq_of_mem {r : OpcodeRow} (h : r ∈ opcodeTable) : ∃ i : Instr, i.row = r := by
  simp only [opcodeTable, List.mem_cons, List.not_mem_nil, or_false] at h
  rcases h with h | h | h | h | h | h | h | h | h | h | h | h <;> exact ⟨_, h.symm⟩

theorem encode_and_mask (i : Instr) : encode i &&& i.row.mask = i.row.pattern :=
  match i with
  | .halt => Laws.FixedBits.halt.2
  | .ret => Laws.FixedBits.ret.2
  | .call nnn => (Laws.FixedBits.call nnn).2
  | .mov x y => (Laws.FixedBits.mov x y).2
  | .or x y => (Laws.FixedBits.or x y).2
  | .and x y => (Laws.FixedBits.and x y).2
  | .xor x y => (Laws.FixedBits.xor x y).2
  | .add x y => (Laws.FixedBits.add x y).2
  | .sub x y => (Laws.FixedBits.sub x y).2
  | .shr x y => (Laws.FixedBits.shr x y).2
  | .rsub x y => (Laws.FixedBits.rsub x y).2
  | .shl x y => (Laws.FixedBits.shl x y).2

theorem rows_disjoint : ∀ r ∈ opcodeTable, ∀ r' ∈ opcodeTable,
    r.pattern &&& r'.mask = r'.pattern &&& r.mask → r = r' := by
  decide

/-- Two rows that cover one word agree on the bits both of them fix, so they are one row. -/
theorem row_eq_of_both_cover {w : Word} {r r' : OpcodeRow} (hr : r ∈ opcodeTable)
    (hr' : r' ∈ opcodeTable) (h : w &&& r.mask = r.pattern) (h' : w &&& r'.mask = r'.pattern) :
    r = r' := by
  apply rows_disjoint r hr r' hr'
  rw [← h, ← h', BitVec.and_assoc, BitVec.and_comm r.mask, BitVec.and_assoc]

/-! ### A word that a row covers decodes -/

theorem majorOf_and (a b : Word) : majorOf (a &&& b) = majorOf a &&& majorOf b :=
  BitVec.extractLsb'_and

theorem minorOf_and (a b : Word) : minorOf (a &&& b) = minorOf a &&& minorOf b :=
  BitVec.extractLsb'_and

theorem majorOf_eq_of_masked {w mask pattern : Word} (h : w &&& mask = pattern)
    (hm : majorOf mask = 0xF#4) : majorOf w = majorOf pattern := by
  rw [← h, majorOf_and, hm]
  exact BitVec.and_allOnes.symm

theorem minorOf_eq_of_masked {w mask pattern : Word} (h : w &&& mask = pattern)
    (hm : minorOf mask = 0xF#4) : minorOf w = minorOf pattern := by
  rw [← h, minorOf_and, hm]
  exact BitVec.and_allOnes.symm

theorem majorOf_formatR (x y : Reg) (n : BitVec 4) : majorOf (formatR x y n) = 0x8#4 := by
  rw [majorOf_eq_iff, formatR_toNat, BitVec.toNat_ofNat]
  omega

theorem minorOf_formatR (x y : Reg) (n : BitVec 4) : minorOf (formatR x y n) = n := by
  apply BitVec.eq_of_toNat_eq
  rw [minorOf_toNat, formatR_toNat]
  omega

/-- A word under the mask of the ALU rows goes to the ALU family, with the minor opcode of the
row's pattern. -/
theorem decodeWord_of_aluRow {w : Word} (n : BitVec 4) (h : w &&& 0xF00F#16 = formatR 0 0 n) :
    decodeWord w = decodeAlu n (xOf w) (yOf w) := by
  have hmajor : majorOf w = 0x8#4 := (majorOf_eq_of_masked h rfl).trans (majorOf_formatR 0 0 n)
  have hminor : minorOf w = n := (minorOf_eq_of_masked h rfl).trans (minorOf_formatR 0 0 n)
  rw [decodeWord_of_majorOf_eight hmajor, hminor]

theorem decodes_of_row_covers {w : Word} (i : Instr) (h : w &&& i.row.mask = i.row.pattern) :
    ∃ j, decodeWord w = .ok j := by
  cases i with
  | halt =>
    obtain rfl : w = 0x0000#16 := BitVec.and_allOnes.symm.trans h
    exact ⟨_, rfl⟩
  | ret =>
    obtain rfl : w = 0x00EE#16 := BitVec.and_allOnes.symm.trans h
    exact ⟨_, rfl⟩
  | call nnn =>
    have hmajor : majorOf w = majorOf 0x2000#16 := majorOf_eq_of_masked (mask := 0xF000#16) h rfl
    exact ⟨_, decodeWord_of_majorOf_two hmajor⟩
  | mov => exact ⟨.mov _ _, decodeWord_of_aluRow 0x0#4 h⟩
  | or => exact ⟨.or _ _, decodeWord_of_aluRow 0x1#4 h⟩
  | and => exact ⟨.and _ _, decodeWord_of_aluRow 0x2#4 h⟩
  | xor => exact ⟨.xor _ _, decodeWord_of_aluRow 0x3#4 h⟩
  | add => exact ⟨.add _ _, decodeWord_of_aluRow 0x4#4 h⟩
  | sub => exact ⟨.sub _ _, decodeWord_of_aluRow 0x5#4 h⟩
  | shr => exact ⟨.shr _ _, decodeWord_of_aluRow 0x6#4 h⟩
  | rsub => exact ⟨.rsub _ _, decodeWord_of_aluRow 0x7#4 h⟩
  | shl => exact ⟨.shl _ _, decodeWord_of_aluRow 0xE#4 h⟩

/-- Settles O6: a covered word has the major and minor opcode its row fixes, so it decodes; a word
that decodes is its instruction's own word, which that instruction's row covers, and no two rows
cover one word. -/
theorem matchAndMaskSelectTheInstruction : Obligations.MatchAndMaskSelectTheInstruction := by
  unfold Obligations.MatchAndMaskSelectTheInstruction
  refine ⟨rfl, ?covered_decodes, fun w i hw => ⟨row_mem_opcodeTable i, fun r hr => ?own_row⟩⟩
  case covered_decodes =>
    rintro w ⟨r, hr, h⟩
    obtain ⟨i, rfl⟩ := exists_row_eq_of_mem hr
    exact decodes_of_row_covers i h
  case own_row =>
    have own : w &&& i.row.mask = i.row.pattern := encode_of_decodeWord hw ▸ encode_and_mask i
    constructor
    · exact fun h => row_eq_of_both_cover hr (row_mem_opcodeTable i) h own
    · rintro rfl
      exact own

end Sys2Proof.Proofs
end

section
/-! ## Fetch, decode and dispatch (spec/40_fetch_decode_dispatch.md): what a step answers -/

namespace Sys2Proof.Proofs
open Sys2Proof Sys2Proof.Machine

/-! ### The step of a stopped core, and of one whose `pc` is beyond memory -/

theorem step_of_not_running {s : State} (h : s.status.state ≠ .running) : step s = .next s := by
  rcases step_eq s with ⟨-, e⟩ | ⟨hr, -⟩ | ⟨_, _, hr, -⟩ | ⟨_, _, hr, -⟩
  · exact e
  all_goals exact absurd hr h

theorem step_of_pc_beyond_memory {s : State} (hr : s.status.state = .running)
    (hp : 4094 < s.pc.toNat) : step s = .next (s.faulted .outOfBounds) := by
  have hf : s.fetchWord = none := fetchWord_eq_none_iff.mpr hp
  rcases step_eq s with ⟨hn, -⟩ | ⟨-, -, e⟩ | ⟨_, _, -, hw, -⟩ | ⟨_, _, -, hw, -⟩
  · exact absurd hr hn
  · exact e
  all_goals
    rw [hf] at hw
    cases hw

/-- A raise changes `status` alone (R165, R168). -/
theorem faultedIn_faulted (c : Fault) (s : State) : FaultedIn c s (s.faulted c) :=
  ⟨rfl, fun _ => rfl, ⟨rfl, fun _ => rfl⟩, ⟨rfl, rfl⟩, rfl⟩

/-- Settles O13: the bounds check fails before anything is fetched (R91), and the raise that the
step then ends in changes `status` alone. -/
theorem fetchBeyondMemoryRaisesOutOfBounds : Obligations.FetchBeyondMemoryRaisesOutOfBounds := by
  unfold Obligations.FetchBeyondMemoryRaisesOutOfBounds
  intro s hr hp
  exact ⟨_, step_of_pc_beyond_memory hr hp, faultedIn_faulted _ s⟩

/-- Settles O14: a stopped core's step answers the state it was given, and so does a run of any
number of steps. -/
theorem stoppedCoreChangesNothing : Obligations.StoppedCoreChangesNothing := by
  unfold Obligations.StoppedCoreChangesNothing
  intro s h
  exact ⟨step_of_not_running h, runFor_stopped h⟩

/-! ### Every step answers a next state -/

theorem exists_exec_eq_next (i : Instr) (s : State) : ∃ t, exec i s = .next t := by
  cases i with
  | ret => rcases execRet_cases s with ⟨-, e⟩ | ⟨_, _, -, e⟩ <;> exact ⟨_, e⟩
  | call nnn => rcases execCall_cases nnn s with ⟨-, e⟩ | ⟨_, -, e⟩ <;> exact ⟨_, e⟩
  | _ => exact ⟨_, rfl⟩

theorem exists_step_eq_next (s : State) : ∃ t, step s = .next t := by
  rcases step_eq s with ⟨-, e⟩ | ⟨-, -, e⟩ | ⟨_, _, -, -, -, e⟩ | ⟨_, i, -, -, -, e⟩
  case inr.inr.inr =>
    rw [e]
    exact exists_exec_eq_next i _
  all_goals exact ⟨_, e⟩

/-! ### The three outcomes of a step -/

theorem fetchWord_eq_encode {s : State} {i : Instr} (h : Fetches s i) :
    s.fetchWord = some (encode i) := by
  obtain ⟨-, w, hf, hd⟩ := h
  rw [hf, encode_of_decodeWord hd]

/-- Settles O16: by the cases of a step.  An ALU instruction, and a CALL or RET that the stack
allows, leave `status` as it is; HALT writes `Halted`, and its word is 0x0000; each raise writes
`Faulted` with its cause. -/
theorem stepHasExactlyThreeOutcomes : Obligations.StepHasExactlyThreeOutcomes := by
  unfold Obligations.StepHasExactlyThreeOutcomes
  intro s hr hc
  have hs : s.status = ⟨.running, none⟩ := by rw [← hr, ← hc]
  obtain ⟨t, ht⟩ := exists_step_eq_next s
  refine ⟨t, ht, ?_⟩
  cases step_cases ht with
  | stopped hn => exact absurd hr hn
  | alu i x o hF hx =>
    obtain ⟨-, -, -, -, hst⟩ := writeBack_rest s.advancePc x o
    exact .inl ⟨hst.trans hs, i, hF, .inl (isAlu_iff_dest.mpr ⟨x, hx⟩)⟩
  | ret _ _ hF _ _ _ _ _ _ hst => exact .inl ⟨hst.trans hs, _, hF, .inr (.inl rfl)⟩
  | call _ a _ hF _ _ _ _ _ _ _ hst => exact .inl ⟨hst.trans hs, _, hF, .inr (.inr ⟨a, rfl⟩)⟩
  | halt hF =>
    have hst : (s.advancePc.setRunState .halted).status = ⟨.halted, none⟩ := by simp [hc]
    exact .inr (.inl ⟨hst, fetchWord_eq_encode hF⟩)
  | outOfBounds | unimplemented | underflow | overflow => exact .inr (.inr ⟨_, rfl⟩)

end Sys2Proof.Proofs
end

section
/-! ## ALU (spec/41_alu.md): what an ALU instruction writes and what it leaves -/

namespace Sys2Proof.Proofs
open Sys2Proof Sys2Proof.Machine

/-! ### The write-back (R110): frames, and what is read after it -/

theorem onlyV_writeBack (s : State) (x : Reg) (o : AluOut) : OnlyV s (s.writeBack x o) := by
  obtain ⟨hm, hpc, hstack, hsp, hst⟩ := writeBack_rest s x o
  exact ⟨⟨hm, fun a => congrArg (Memory.read · a) hm⟩, hpc, ⟨hstack, hsp⟩, hst⟩

theorem sameVBut_dest_flag_writeBack (s : State) (x : Reg) (o : AluOut) :
    SameVBut [x, 15] s (s.writeBack x o) := by
  intro r hr
  obtain ⟨hx, h15⟩ : r ≠ x ∧ r ≠ 15 := by simpa using hr
  obtain ⟨b, f⟩ := o
  cases b <;> cases f <;> simp [getV_writeBack, hx, h15]

theorem sameVBut_dest_writeBack_noFlag (s : State) (x : Reg) (b : Option Byte) :
    SameVBut [x] s (s.writeBack x ⟨b, none⟩) := by
  intro r hr
  have hx : r ≠ x := by simpa using hr
  cases b <;> simp [getV_writeBack, hx]

/-- The result is written last, so it is what its destination holds, `V[15]` included
(decision D7). -/
theorem getV_dest_writeBack_result (s : State) (x : Reg) (b : Byte) (f : Option Byte) :
    (s.writeBack x ⟨some b, f⟩).getV x = b := by
  cases f <;> simp [getV_writeBack]

theorem getV_flag_writeBack_result (s : State) {x : Reg} (hx : x ≠ 15) (b f : Byte) :
    (s.writeBack x ⟨some b, some f⟩).getV 15 = f := by
  simp [getV_writeBack, hx.symm]

theorem getV_flag_writeBack_noResult (s : State) (x : Reg) (f : Byte) :
    (s.writeBack x ⟨none, some f⟩).getV 15 = f := by
  simp [getV_writeBack]

theorem getV_dest_writeBack_noResult (s : State) {x : Reg} (hx : x ≠ 15) (f : Byte) :
    (s.writeBack x ⟨none, some f⟩).getV x = s.getV x := by
  simp [getV_writeBack, hx]

/-! ### The meaning of each ALU instruction as a write-back -/

theorem exec_mov (x y : Reg) (s : State) :
    exec (.mov x y) s = .next (s.writeBack x ⟨some (s.getV y), none⟩) := rfl

theorem exec_or (x y : Reg) (s : State) :
    exec (.or x y) s = .next (s.writeBack x ⟨some (s.getV x ||| s.getV y), none⟩) := rfl

theorem exec_and (x y : Reg) (s : State) :
    exec (.and x y) s = .next (s.writeBack x ⟨some (s.getV x &&& s.getV y), none⟩) := rfl

theorem exec_xor (x y : Reg) (s : State) :
    exec (.xor x y) s = .next (s.writeBack x ⟨some (s.getV x ^^^ s.getV y), none⟩) := rfl

theorem exec_add (x y : Reg) (s : State) :
    exec (.add x y) s = .next (s.writeBack x (Alu.add (s.getV x) (s.getV y))) := rfl

theorem exec_sub (x y : Reg) (s : State) :
    exec (.sub x y) s = .next (s.writeBack x (Alu.sub (s.getV x) (s.getV y))) := rfl

/-- RSUB is SUB's function with the operands exchanged; the destination is still `V[x]` (R118). -/
theorem exec_rsub (x y : Reg) (s : State) :
    exec (.rsub x y) s = .next (s.writeBack x (Alu.sub (s.getV y) (s.getV x))) := rfl

theorem exec_shr (x y : Reg) (s : State) :
    exec (.shr x y) s =
      .next (s.writeBack x ⟨some (s.getV x >>> 1), some (Alu.bit (s.getV x) 0)⟩) := rfl

theorem exec_shl (x y : Reg) (s : State) :
    exec (.shl x y) s =
      .next (s.writeBack x ⟨some (s.getV x <<< 1), some (Alu.bit (s.getV x) 0)⟩) := rfl

/-! ### MOV, OR, AND and XOR (R111 to R114): a result and no flag -/

theorem exec_result_noFlag {i : Instr} {x : Reg} {s : State} {b : Byte}
    (h : exec i s = .next (s.writeBack x ⟨some b, none⟩)) :
    ∃ t, exec i s = .next t ∧ t.getV x = b ∧ SameVBut [x] s t ∧ OnlyV s t :=
  ⟨_, h, getV_dest_writeBack_result s x b none, sameVBut_dest_writeBack_noFlag s x (some b),
    onlyV_writeBack s x _⟩

/-- Settles O19: MOV is the write-back of the old `V[y]` with no flag. -/
theorem movCopiesY : Obligations.MovCopiesY := by
  unfold Obligations.MovCopiesY
  exact fun x y s => exec_result_noFlag (exec_mov x y s)

/-- Settles O20: OR is the write-back of the bitwise or with no flag. -/
theorem orWritesBitwiseOr : Obligations.OrWritesBitwiseOr := by
  unfold Obligations.OrWritesBitwiseOr
  exact fun x y s => exec_result_noFlag (exec_or x y s)

/-- Settles O21: AND is the write-back of the bitwise and with no flag. -/
theorem andWritesBitwiseAnd : Obligations.AndWritesBitwiseAnd := by
  unfold Obligations.AndWritesBitwiseAnd
  exact fun x y s => exec_result_noFlag (exec_and x y s)

/-- Settles O22: XOR is the write-back of the bitwise exclusive-or with no flag. -/
theorem xorWritesBitwiseExclusiveOr : Obligations.XorWritesBitwiseExclusiveOr := by
  unfold Obligations.XorWritesBitwiseExclusiveOr
  exact fun x y s => exec_result_noFlag (exec_xor x y s)

/-! ### ADD, SUB and RSUB (R115, R116, R118): a result and a flag, or the flag alone -/

/-- A number below 256 stored as the result is read back as itself, beside its flag. -/
theorem writeBack_stores (s : State) (x : Reg) {n : Nat} (hn : n < 256) (f : Byte) :
    ((s.writeBack x ⟨some (BitVec.ofNat 8 n), some f⟩).getV x).toNat = n ∧
      (x ≠ 15 → (s.writeBack x ⟨some (BitVec.ofNat 8 n), some f⟩).getV 15 = f) := by
  refine ⟨?_, fun hx => getV_flag_writeBack_result s hx _ f⟩
  rw [getV_dest_writeBack_result, BitVec.toNat_ofNat, Nat.mod_eq_of_lt hn]

theorem writeBack_flags (s : State) (x : Reg) (f : Byte) :
    (s.writeBack x ⟨none, some f⟩).getV 15 = f ∧
      (x ≠ 15 → (s.writeBack x ⟨none, some f⟩).getV x = s.getV x) :=
  ⟨getV_flag_writeBack_noResult s x f, fun hx => getV_dest_writeBack_noResult s hx f⟩

/-- The write-back of a difference, whichever register is its destination: what SUB and RSUB
share. -/
theorem writeBack_sub (s : State) (x : Reg) (a b : Byte) :
    if b.toNat ≤ a.toNat then
      ((s.writeBack x (Alu.sub a b)).getV x).toNat = a.toNat - b.toNat ∧
        (x ≠ 15 → (s.writeBack x (Alu.sub a b)).getV 15 = 1)
    else (s.writeBack x (Alu.sub a b)).getV 15 = 0 ∧
      (x ≠ 15 → (s.writeBack x (Alu.sub a b)).getV x = s.getV x) := by
  split
  case isTrue h =>
    rw [Alu.sub_fits h]
    exact writeBack_stores s x (by omega) 1
  case isFalse h =>
    rw [Alu.sub_borrows (by omega)]
    exact writeBack_flags s x 0

/-- Settles O23: a sum of at most 255 fits the byte and is stored with flag 0; a larger one is a
carry, of which the flag 1 is all that is written. -/
theorem addStoresTheSumUnlessItCarries : Obligations.AddStoresTheSumUnlessItCarries := by
  unfold Obligations.AddStoresTheSumUnlessItCarries
  intro x y s
  refine ⟨_, exec_add x y s, sameVBut_dest_flag_writeBack s x _, onlyV_writeBack s x _, ?_⟩
  split
  case isTrue h =>
    rw [Alu.add_fits h]
    exact writeBack_stores s x (by omega) 0
  case isFalse h =>
    rw [Alu.add_carries (by omega)]
    exact writeBack_flags s x 1

/-- Settles O24: the write-back of `V[x] - V[y]`. -/
theorem subStoresTheDifferenceUnlessItBorrows :
    Obligations.SubStoresTheDifferenceUnlessItBorrows := by
  unfold Obligations.SubStoresTheDifferenceUnlessItBorrows
  intro x y s
  exact ⟨_, exec_sub x y s, sameVBut_dest_flag_writeBack s x _, onlyV_writeBack s x _,
    writeBack_sub s x (s.getV x) (s.getV y)⟩

/-- Settles O25: the write-back of `V[y] - V[x]`, to `V[x]` all the same. -/
theorem rsubStoresTheReverseDifferenceUnlessItBorrows :
    Obligations.RsubStoresTheReverseDifferenceUnlessItBorrows := by
  unfold Obligations.RsubStoresTheReverseDifferenceUnlessItBorrows
  intro x y s
  exact ⟨_, exec_rsub x y s, sameVBut_dest_flag_writeBack s x _, onlyV_writeBack s x _,
    writeBack_sub s x (s.getV y) (s.getV x)⟩

/-! ### SHR and SHL (R117, R119): a result and bit 0 of the operand -/

theorem exec_result_flagBitZero {i : Instr} {x : Reg} {s : State} {b : Byte}
    (h : exec i s = .next (s.writeBack x ⟨some b, some (Alu.bit (s.getV x) 0)⟩)) :
    ∃ t, exec i s = .next t ∧ SameVBut [x, 15] s t ∧ OnlyV s t ∧ (t.getV x).toNat = b.toNat ∧
      (x ≠ 15 → (t.getV 15).toNat = (s.getV x).toNat % 2) := by
  refine ⟨_, h, sameVBut_dest_flag_writeBack s x _, onlyV_writeBack s x _, ?_, fun hx => ?_⟩
  · rw [getV_dest_writeBack_result]
  · rw [getV_flag_writeBack_result s hx, Alu.bit_zero_toNat]

theorem toNat_ushiftRight_one (a : Byte) : (a >>> 1).toNat = a.toNat / 2 := by
  rw [BitVec.toNat_ushiftRight, Nat.shiftRight_one]

theorem toNat_shiftLeft_one (a : Byte) : (a <<< 1).toNat = 2 * a.toNat % 256 := by
  rw [BitVec.toNat_shiftLeft, Nat.shiftLeft_eq, Nat.mul_comm]

/-- Settles O26: SHR writes `V[x] >>> 1` and the old bit 0; `y` is not an operand. -/
theorem shrHalvesAndFlagsBitZero : Obligations.ShrHalvesAndFlagsBitZero := by
  unfold Obligations.ShrHalvesAndFlagsBitZero
  intro x y s
  rw [← toNat_ushiftRight_one]
  exact exec_result_flagBitZero (exec_shr x y s)

/-- Settles O27: SHL writes `V[x] <<< 1` and the old bit 0, which is not the bit shifted out; `y` is
not an operand. -/
theorem shlDoublesAndFlagsBitZero : Obligations.ShlDoublesAndFlagsBitZero := by
  unfold Obligations.ShlDoublesAndFlagsBitZero
  intro x y s
  rw [← toNat_shiftLeft_one]
  exact exec_result_flagBitZero (exec_shl x y s)

/-! ### Faults (R122) -/

theorem exec_alu_keeps_status {i : Instr} (h : i.isAlu = true) (s : State) :
    ∃ t, exec i s = .next t ∧ t.status = s.status := by
  obtain ⟨x, hx⟩ := isAlu_iff_dest.mp h
  obtain ⟨o, -, ho⟩ := exec_alu hx s
  obtain ⟨-, -, -, -, hst⟩ := writeBack_rest s x o
  exact ⟨_, ho, hst⟩

theorem decodeAlu_unlisted {n : BitVec 4} (x y : Reg)
    (h : n.toNat ∈ [8, 9, 0xA, 0xB, 0xC, 0xD, 0xF]) :
    decodeAlu n x y = .error .unimplementedOpcode := by
  obtain ⟨-, -, -, -, -, -, -, -, -, other⟩ := decodeAlu_cases n x y
  apply other
  simp only [List.mem_cons, List.not_mem_nil, or_false] at h ⊢
  omega

/-- The seven minor opcodes are all that the ALU family does not list. -/
theorem decodeAlu_listed {n : BitVec 4} (x y : Reg)
    (h : n.toNat ∉ [8, 9, 0xA, 0xB, 0xC, 0xD, 0xF]) :
    ∃ i, decodeAlu n x y = .ok i ∧ i.isAlu = true := by
  unfold decodeAlu
  split
  case h_10 =>
    simp only [imp_false, List.mem_cons, List.not_mem_nil, or_false] at *
    omega
  all_goals exact ⟨_, rfl, rfl⟩

theorem step_of_decodeWord_error {s : State} {w : Word} {e : Reject}
    (hr : s.status.state = .running) (hf : s.fetchWord = some w) (hd : decodeWord w = .error e) :
    step s = .next (s.advancePc.faulted .unimplementedOpcode) := by
  simp [step, hr, hf, hd, raise]

/-- Settles O30: an ALU instruction's write-back leaves `status`; the decoder sends a word of major
opcode 8 to the ALU family, where it is an ALU instruction or, for the seven minor opcodes, none;
in that case the step is a raise, which writes no register. -/
theorem aluWordsRaiseNoOtherFault : Obligations.AluWordsRaiseNoOtherFault := by
  unfold Obligations.AluWordsRaiseNoOtherFault
  refine ⟨fun i s h => exec_alu_keeps_status h s, fun s w hr hf h8 => ?_⟩
  have hd : decodeWord w = decodeAlu (minorOf w) (xOf w) (yOf w) :=
    decodeWord_of_majorOf_eight (majorOf_eq_iff.2 h8)
  rw [← minorOf_toNat]
  by_cases hn : (minorOf w).toNat ∈ [8, 9, 0xA, 0xB, 0xC, 0xD, 0xF]
  · have hstep := step_of_decodeWord_error hr hf (hd.trans (decodeAlu_unlisted _ _ hn))
    refine ⟨_, hstep, ?_⟩
    rw [if_pos hn]
    exact ⟨State.faulted_status _ _, fun _ => rfl⟩
  · obtain ⟨i, hi, halu⟩ := decodeAlu_listed (xOf w) (yOf w) hn
    have hF : Fetches s i := ⟨hr, w, hf, hd.trans hi⟩
    obtain ⟨t, ht, hst⟩ := exec_alu_keeps_status halu s.advancePc
    refine ⟨t, hF.step_eq_exec.trans ht, ?_⟩
    rw [if_neg hn]
    exact hst

end Sys2Proof.Proofs
end

section
/-! ## Control flow (spec/42_control_flow.md): CALL and RET -/

namespace Sys2Proof.Proofs
open Sys2Proof Sys2Proof.Machine

/-! ### Frames -/

theorem sameV_of_v_eq {s t : State} (h : t.v = s.v) : SameV s t :=
  fun r => congrArg (fun v : Vector Byte 16 => v[r.val]) h

theorem sameMem_of_mem_eq {s t : State} (h : t.mem = s.mem) : SameMem s t :=
  ⟨h, fun a => congrArg (Memory.read · a) h⟩

theorem stackAt_eq_of_stack_eq {s t : State} (h : t.stack = s.stack) (k : Fin 16) :
    t.stackAt k = s.stackAt k :=
  congrArg (fun st : Vector Word 16 => st[k.val]) h

/-! ### CALL (R131) -/

theorem exec_call (nnn : Addr) (s : State) : exec (.call nnn) s = execCall nnn s := rfl

/-- The operand is extended with zeros, so the target is the same number (R131). -/
theorem callTarget_toNat (nnn : Addr) : (callTarget nnn).toNat = nnn.toNat := by
  rw [callTarget, BitVec.toNat_setWidth_of_le (by decide)]

/-- Settles O31: the push fails exactly when the stack is full, and CALL is then a raise, which
changes `status` alone; a push that succeeds writes the one slot at `sp`, and then only `pc` is
set. -/
theorem callPushesAndJumpsUnlessTheStackIsFull :
    Obligations.CallPushesAndJumpsUnlessTheStackIsFull := by
  unfold Obligations.CallPushesAndJumpsUnlessTheStackIsFull
  intro nnn s
  rw [exec_call]
  rcases execCall_cases nnn s with ⟨h16, e⟩ | ⟨t, hpush, e⟩
  · exact ⟨fun k hk => by omega, fun _ => ⟨_, e, faultedIn_faulted _ s⟩⟩
  · obtain ⟨hlt, hsp, htop, hrest, hv, hm, -, hst⟩ := push_cases hpush
    refine ⟨fun k hk => ?_, fun h16 => by omega⟩
    obtain rfl : k = ⟨s.sp.val, hlt⟩ := Fin.ext hk.symm
    exact ⟨_, e, htop, fun j hj => hrest j fun hval => hj (Fin.ext hval), hsp,
      callTarget_toNat nnn, sameV_of_v_eq hv, sameMem_of_mem_eq hm, hst⟩

/-! ### RET (R133) -/

theorem exec_ret (s : State) : exec .ret s = execRet s := rfl

/-- Settles O32: the pop fails exactly when the stack is empty, and RET is then a raise, which
changes `status` alone; a pop that succeeds lowers `sp` and keeps every slot (decision D15), and
then only `pc` is set, to the entry at the new `sp`. -/
theorem retPopsUnlessTheStackIsEmpty : Obligations.RetPopsUnlessTheStackIsEmpty := by
  unfold Obligations.RetPopsUnlessTheStackIsEmpty
  intro s
  rw [exec_ret]
  rcases execRet_cases s with ⟨h0, e⟩ | ⟨w, t, hpop, e⟩
  · exact ⟨fun k hk => by omega, fun _ => ⟨_, e, faultedIn_faulted _ s⟩⟩
  · obtain ⟨i, hi, hw, hsp, hstack, hv, hm, -, hst⟩ := pop_cases hpop
    refine ⟨fun k hk => ?_, fun h0 => by omega⟩
    obtain rfl : k = i := Fin.ext (by omega)
    exact ⟨_, e, hsp, hw, stackAt_eq_of_stack_eq hstack, sameV_of_v_eq hv, sameMem_of_mem_eq hm,
      hst⟩

end Sys2Proof.Proofs
end

section
/-! ## HALT and the `run` request (spec/43_halt_run_host.md): both write `status.state` alone -/

namespace Sys2Proof.Proofs
open Sys2Proof Sys2Proof.Machine

/-- A write of `status.state` leaves every other element of the state (R140, R142). -/
theorem setRunState_frame (s : State) (r : RunState) :
    SameV s (s.setRunState r) ∧ SameMem s (s.setRunState r) ∧ SameStack s (s.setRunState r) :=
  ⟨sameV_of_v_eq (State.setRunState_v s r), sameMem_of_mem_eq (State.setRunState_mem s r),
    State.setRunState_stack s r, State.setRunState_sp s r⟩

/-! ### HALT (R140) -/

theorem exec_halt (s : State) : exec .halt s = .next (s.setRunState .halted) := rfl

theorem fetches_halt_of_fetchWord_zero {s : State} (hr : s.status.state = .running)
    (hf : s.fetchWord = some 0) : Fetches s .halt :=
  ⟨hr, 0, hf, decodeWord_of_toNat_zero rfl⟩

/-- Settles O33: HALT is the one write of `status.state`.  The step that fetches the zero word is
HALT past that word (decision D4), and the advance, which changes `pc` alone, does not wrap because
the fetch succeeded (R91). -/
theorem haltOnlyEndsTheRun : Obligations.HaltOnlyEndsTheRun := by
  unfold Obligations.HaltOnlyEndsTheRun
  constructor
  · intro s
    obtain ⟨hv, hm, hst⟩ := setRunState_frame s .halted
    exact ⟨_, exec_halt s, State.setRunState_status s _, hv, hm, hst, State.setRunState_pc s _⟩
  · intro s hr hf
    have hF : Fetches s .halt := fetches_halt_of_fetchWord_zero hr hf
    have hstep : step s = .next (s.advancePc.setRunState .halted) := hF.step_eq_exec
    have hpc : (s.advancePc.setRunState .halted).pc.toNat = s.pc.toNat + 2 :=
      advancePc_toNat hF.pc_le
    obtain ⟨hv, hm, hst⟩ := setRunState_frame s.advancePc .halted
    exact ⟨_, hstep, State.setRunState_status _ _, hpc, hv, hm, hst⟩

/-! ### The `run` request (R141, R142) -/

theorem serve_run_of_hostMayWrite {s : State} (h : s.hostMayWrite = true) :
    serve .run s = some (s.setRunState .running) := by
  simp [serve, runRequest, h]

/-- Settles O48: in `Idle` and `Halted`, the states in which the host may write, the request is the
one write of `status.state`. -/
theorem runRequestLoadsNothing : Obligations.RunRequestLoadsNothing := by
  unfold Obligations.RunRequestLoadsNothing
  intro s h
  obtain ⟨hv, hm, hst⟩ := setRunState_frame s .running
  exact ⟨_, serve_run_of_hostMayWrite (hostMayWrite_iff.mpr h), State.setRunState_status s _,
    State.setRunState_pc s _, hv, hm, hst⟩

end Sys2Proof.Proofs
end

section
/-! ## Faults (spec/60_exceptions.md): the condition of each, and that nothing else raises it -/

namespace Sys2Proof.Proofs
open Sys2Proof Sys2Proof.Machine

/-! ### UnimplementedOpcode (R164) -/

/-- The decoder rejects exactly the words that no row of R76 covers. -/
theorem decodeWord_error_iff_no_row_covers {w : Word} :
    (∃ e, decodeWord w = .error e) ↔ ∀ r ∈ opcodeTable, w &&& r.mask ≠ r.pattern := by
  constructor
  · rintro ⟨e, he⟩ r hr hcovers
    obtain ⟨i, rfl⟩ := exists_row_eq_of_mem hr
    obtain ⟨j, hj⟩ := decodes_of_row_covers i hcovers
    rw [he] at hj
    cases hj
  · intro h
    cases hd : decodeWord w with
    | error e => exact ⟨e, rfl⟩
    | ok i =>
      have own : w &&& i.row.mask = i.row.pattern := encode_of_decodeWord hd ▸ encode_and_mask i
      exact absurd own (h i.row (row_mem_opcodeTable i))

theorem step_of_no_row_covers {s : State} {w : Word} (hr : s.status.state = .running)
    (hf : s.fetchWord = some w) (h : ∀ r ∈ opcodeTable, w &&& r.mask ≠ r.pattern) :
    step s = .next (s.advancePc.faulted .unimplementedOpcode) := by
  obtain ⟨e, hd⟩ := decodeWord_error_iff_no_row_covers.mpr h
  exact step_of_decodeWord_error hr hf hd

/-- Settles O12: the decoder rejects a word that no row covers, so the step is a raise past that
word; the raise changes `status` alone, and the advance does not wrap because the fetch succeeded. -/
theorem unlistedWordRaisesUnimplementedOpcode :
    Obligations.UnlistedWordRaisesUnimplementedOpcode := by
  unfold Obligations.UnlistedWordRaisesUnimplementedOpcode
  intro s w hr hf h
  exact ⟨_, step_of_no_row_covers hr hf h, faultedIn_faulted _ s.advancePc,
    advancePc_toNat (pc_le_of_fetchWord hf)⟩

/-! ### StackOverflow and StackUnderflow (R161, R162) -/

theorem step_of_call_on_full_stack {s : State} {a : Addr} (hF : Fetches s (.call a))
    (h16 : s.sp.val = 16) : step s = .next (s.advancePc.faulted .stackOverflow) := by
  rw [hF.step_eq_exec, exec_call]
  rcases execCall_cases a s.advancePc with ⟨-, e⟩ | ⟨t, hpush, -⟩
  · exact e
  · have hfull : s.advancePc.push s.advancePc.pc = none := push_eq_none_iff.mpr h16
    rw [hfull] at hpush
    cases hpush

theorem step_of_ret_on_empty_stack {s : State} (hF : Fetches s .ret) (h0 : s.sp.val = 0) :
    step s = .next (s.advancePc.faulted .stackUnderflow) := by
  rw [hF.step_eq_exec, exec_ret]
  rcases execRet_cases s.advancePc with ⟨-, e⟩ | ⟨w, t, hpop, -⟩
  · exact e
  · have hempty : s.advancePc.pop = none := pop_eq_none_iff.mpr h0
    rw [hempty] at hpop
    cases hpop

/-! ### Each fault exactly on its condition (R160, R167) -/

/-- The column "condition" of R160's table, on the running core's state when the step begins. -/
def FaultCondition (s : State) : Fault → Prop
  | .stackOverflow => s.sp.val = 16 ∧ ∃ a, Fetches s (.call a)
  | .stackUnderflow => s.sp.val = 0 ∧ Fetches s .ret
  | .outOfBounds => 4094 < s.pc.toNat
  | .unimplementedOpcode =>
    ∃ w, s.fetchWord = some w ∧ ∀ r ∈ opcodeTable, w &&& r.mask ≠ r.pattern

theorem step_raises_of_faultCondition {s : State} {c : Fault} (hr : s.status.state = .running)
    (h : FaultCondition s c) : ∃ t, step s = .next t ∧ t.status.cause = some c := by
  cases c with
  | stackOverflow =>
    obtain ⟨h16, a, hF⟩ := h
    exact ⟨_, step_of_call_on_full_stack hF h16, rfl⟩
  | stackUnderflow =>
    obtain ⟨h0, hF⟩ := h
    exact ⟨_, step_of_ret_on_empty_stack hF h0, rfl⟩
  | outOfBounds => exact ⟨_, step_of_pc_beyond_memory hr h, rfl⟩
  | unimplementedOpcode =>
    obtain ⟨w, hf, huncovered⟩ := h
    exact ⟨_, step_of_no_row_covers hr hf huncovered, rfl⟩

/-- A step either raises one fault, on its condition, or leaves the cause as it is. -/
theorem step_raises_or_keeps_cause {s t : State} (h : step s = .next t) :
    (∃ c, t.status.cause = some c ∧ FaultCondition s c) ∨ t.status.cause = s.status.cause := by
  cases step_cases h with
  | outOfBounds _ hp => exact .inl ⟨.outOfBounds, rfl, hp⟩
  | unimplemented w e _ hf hd =>
    exact .inl ⟨.unimplementedOpcode, rfl, w, hf, decodeWord_error_iff_no_row_covers.mp ⟨e, hd⟩⟩
  | underflow hF h0 => exact .inl ⟨.stackUnderflow, rfl, h0, hF⟩
  | overflow a hF h16 => exact .inl ⟨.stackOverflow, rfl, h16, a, hF⟩
  | stopped | halt => exact .inr rfl
  | alu i x o =>
    obtain ⟨-, -, -, -, hst⟩ := writeBack_rest s.advancePc x o
    exact .inr (congrArg Status.cause hst)
  | ret _ _ _ _ _ _ _ _ _ hst => exact .inr (congrArg Status.cause hst)
  | call _ _ _ _ _ _ _ _ _ _ _ hst => exact .inr (congrArg Status.cause hst)

theorem faultCondition_of_step_cause {s t : State} {c : Fault} (hnone : s.status.cause = none)
    (h : step s = .next t) (hc : t.status.cause = some c) : FaultCondition s c := by
  rcases step_raises_or_keeps_cause h with ⟨c', hc', hcond⟩ | hkeeps
  · rw [hc] at hc'
    cases hc'
    exact hcond
  · rw [hc, hnone] at hkeeps
    cases hkeeps

theorem step_cause_iff_faultCondition {s t : State} (hr : s.status.state = .running)
    (hnone : s.status.cause = none) (h : step s = .next t) (c : Fault) :
    t.status.cause = some c ↔ FaultCondition s c := by
  refine ⟨faultCondition_of_step_cause hnone h, fun hcond => ?_⟩
  obtain ⟨u, hu, hc⟩ := step_raises_of_faultCondition hr hcond
  rw [h] at hu
  cases hu
  exact hc

/-- Settles O17: a fault's condition forces the raise of that fault, and a step that meets no
condition leaves the cause, here none, as it is; so each cause comes with its own condition. -/
theorem faultsArisePreciselyFromTheirConditions :
    Obligations.FaultsArisePreciselyFromTheirConditions := by
  unfold Obligations.FaultsArisePreciselyFromTheirConditions
  intro s t hr hnone h
  have hiff := step_cause_iff_faultCondition hr hnone h
  exact ⟨hiff .stackOverflow, hiff .stackUnderflow, hiff .outOfBounds, hiff .unimplementedOpcode⟩

/-- Settles O34: the push of a CALL on the full stack fails, and the raise past its word changes
`status` alone; a step that ends in this cause has met its condition, so what it fetched, one
instruction at most, is a CALL. -/
theorem callOnAFullStackRaisesStackOverflow : Obligations.CallOnAFullStackRaisesStackOverflow := by
  unfold Obligations.CallOnAFullStackRaisesStackOverflow
  constructor
  · intro s a hF h16
    exact ⟨_, step_of_call_on_full_stack hF h16, State.faulted_status _ _,
      advancePc_toNat hF.pc_le, h16, fun _ => rfl⟩
  · intro s t i hF hother hnone h hc
    obtain ⟨-, a, hcall⟩ := faultCondition_of_step_cause hnone h hc
    exact hother a (hF.unique hcall)

/-- Settles O35: the pop of a RET on the empty stack fails, and the raise past its word changes
`status` alone; a step that ends in this cause has met its condition, so what it fetched, one
instruction at most, is a RET. -/
theorem retOnAnEmptyStackRaisesStackUnderflow :
    Obligations.RetOnAnEmptyStackRaisesStackUnderflow := by
  unfold Obligations.RetOnAnEmptyStackRaisesStackUnderflow
  constructor
  · intro s hF h0
    exact ⟨_, step_of_ret_on_empty_stack hF h0, State.faulted_status _ _,
      advancePc_toNat hF.pc_le, h0, fun _ => rfl⟩
  · intro s t i hF hother hnone h hc
    obtain ⟨-, hret⟩ := faultCondition_of_step_cause hnone h hc
    exact hother (hF.unique hret)

end Sys2Proof.Proofs
end

section
/-! ## Reset (spec/70_reset_and_hazards.md): the one state every reset gives -/

namespace Sys2Proof.Proofs
open Sys2Proof Sys2Proof.Machine

@[simp] theorem serve_reset (s : State) : serve .reset s = some State.reset := rfl

@[simp] theorem sp_reset : State.reset.sp = 0 := rfl

@[simp] theorem pc_reset : State.reset.pc = 0 := rfl

/-- Settles O1: a reset answers the reset state whatever the state before it, so the answer of a
second reset is that of the first, and the elements of R191 are those of the reset state. -/
theorem resetForgetsTheStateBefore : Obligations.ResetForgetsTheStateBefore := by
  unfold Obligations.ResetForgetsTheStateBefore
  intro s
  refine ⟨serve_reset s, fun t ht => ?_⟩
  obtain rfl : State.reset = t := Option.some.inj ((serve_reset s).symm.trans ht)
  exact ⟨serve_reset _, State.getV_reset, State.read_reset, State.stackAt_reset,
    congrArg Fin.val sp_reset, pc_reset⟩

end Sys2Proof.Proofs
end

section
/-! ## Encoding (spec/30_encoding.md): the decoder on the words of the encoder, and words that
agree under a mask -/

namespace Sys2Proof.Proofs
open Sys2Proof Sys2Proof.Machine

/-! ### Decode of encode -/

theorem xOf_formatR (x y : Reg) (n : BitVec 4) : xOf (formatR x y n) = x := by
  apply Fin.ext
  rw [xOf_val, formatR_toNat]
  omega

theorem yOf_formatR (x y : Reg) (n : BitVec 4) : yOf (formatR x y n) = y := by
  apply Fin.ext
  rw [yOf_val, formatR_toNat]
  omega

theorem nnnOf_formatA (nnn : Addr) : nnnOf (formatA nnn) = nnn := by
  apply BitVec.eq_of_toNat_eq
  rw [nnnOf_toNat, formatA_toNat]
  omega

theorem majorOf_formatA (nnn : Addr) : majorOf (formatA nnn) = 0x2#4 := by
  rw [majorOf_eq_iff, formatA_toNat, BitVec.toNat_ofNat]
  omega

theorem decodeWord_formatA (nnn : Addr) : decodeWord (formatA nnn) = .ok (.call nnn) := by
  rw [decodeWord_of_majorOf_two (majorOf_formatA nnn), nnnOf_formatA]

theorem decodeWord_formatR (x y : Reg) (n : BitVec 4) :
    decodeWord (formatR x y n) = decodeAlu n x y := by
  rw [decodeWord_of_majorOf_eight (majorOf_formatR x y n), minorOf_formatR, xOf_formatR,
    yOf_formatR]

theorem decodeWord_encode (i : Instr) : decodeWord (encode i) = .ok i := by
  cases i with
  | halt | ret => rfl
  | call nnn => exact decodeWord_formatA nnn
  | _ => exact decodeWord_formatR _ _ _

/-- Settles O4: the word of an instruction has the fields it was built from, which the decoder
reads back; its two bytes in memory order are that word. -/
theorem decodeOfEncodeIsTheInstruction : Obligations.DecodeOfEncodeIsTheInstruction := by
  unfold Obligations.DecodeOfEncodeIsTheInstruction
  intro i rest _
  have hbytes : decode (encodeBytes i ++ rest) = .ok (i, rest) := by
    rw [encodeBytes, decode_wordBytes, decodeWord_encode]
    rfl
  exact ⟨hbytes, decodeWord_encode i⟩

/-! ### Encode of decode -/

/-- Settles O5: the decoder reads every bit of the words it accepts, but for those its case fixes,
into a field of the instruction, and the format puts each field back in its place. -/
theorem encodeOfDecodeIsTheWord : Obligations.EncodeOfDecodeIsTheWord := by
  unfold Obligations.EncodeOfDecodeIsTheWord
  exact fun _ _ h => encode_of_decodeWord h

/-! ### The words of the test vectors -/

/-- Settles O8: each word is decoded as it stands. -/
theorem wordsOfTheSpecDecode : Obligations.WordsOfTheSpecDecode := by
  unfold Obligations.WordsOfTheSpecDecode
  decide

/-! ### The shifts (R78, decision D16) -/

/-- Words that agree under a mask agree in every field the mask keeps whole. -/
theorem field_eq_of_masked_eq {w w' mask : Word} {start len : Nat}
    (hmask : mask.extractLsb' start len = BitVec.allOnes len) (h : w &&& mask = w' &&& mask) :
    w.extractLsb' start len = w'.extractLsb' start len := by
  have hfield := congrArg (BitVec.extractLsb' start len) h
  rwa [BitVec.extractLsb'_and, BitVec.extractLsb'_and, hmask, BitVec.and_allOnes,
    BitVec.and_allOnes] at hfield

/-- A shift's meaning depends on its minor opcode and on `x`. -/
theorem exec_shift_ignores_y {n : BitVec 4} {x y y' : Reg} {i i' : Instr} (s : State)
    (hn : n.toNat = 6 ∨ n.toNat = 14) (hi : decodeAlu n x y = .ok i)
    (hi' : decodeAlu n x y' = .ok i') : exec i s = exec i' s := by
  unfold decodeAlu at hi hi'
  rcases hn with hn | hn
  all_goals
    simp only [hn] at hi hi'
    cases hi
    cases hi'
    rfl

/-- Settles O28: the mask 0xFF0F keeps the major opcode, the minor opcode and `x` whole, so both
words decode to the same shift of the same register, whose meaning does not depend on `y`. -/
theorem shiftsIgnoreTheFieldY : Obligations.ShiftsIgnoreTheFieldY := by
  unfold Obligations.ShiftsIgnoreTheFieldY
  intro s w w' i i' hd hd' h8 hminor hmasked
  have hmajor : majorOf w = 0x8#4 := majorOf_eq_iff.2 h8
  have hmajor_eq : majorOf w = majorOf w' := field_eq_of_masked_eq rfl hmasked
  have hminor_eq : minorOf w = minorOf w' := field_eq_of_masked_eq rfl hmasked
  have hx_eq : xOf w = xOf w' := congrArg BitVec.toFin (field_eq_of_masked_eq rfl hmasked)
  rw [decodeWord_of_majorOf_eight hmajor] at hd
  rw [decodeWord_of_majorOf_eight (hmajor_eq ▸ hmajor), ← hminor_eq, ← hx_eq] at hd'
  rw [← minorOf_toNat] at hminor
  exact exec_shift_ignores_y s hminor hd hd'

end Sys2Proof.Proofs
end

section
/-! ## Fetch, decode and dispatch (spec/40_fetch_decode_dispatch.md): the instruction at `pc`, and
where its step leaves `pc` -/

namespace Sys2Proof.Proofs
open Sys2Proof Sys2Proof.Machine

/-- Settles O15: each path of a step, and of every meaning it dispatches to, answers a next
state. -/
theorem everyStepAnswersANextState : Obligations.EveryStepAnswersANextState := by
  unfold Obligations.EveryStepAnswersANextState
  exact exists_step_eq_next

/-! ### The instruction at `pc` -/

theorem decodeWord_of_decode_pair {hi lo : Byte} {i : Instr} {rest : List Byte}
    (h : decode [hi, lo] = .ok (i, rest)) : decodeWord (be16 hi lo) = .ok i := by
  simp only [decode] at h
  cases hd : decodeWord (be16 hi lo) <;> rw [hd] at h <;> cases h
  rfl

/-- Settles O10: the fetch succeeds below the bounds check, so the step is the decoded instruction's
meaning past its word, and the advance, which changes `pc` alone, does not wrap. -/
theorem stepRunsTheDecodedInstruction : Obligations.StepRunsTheDecodedInstruction := by
  unfold Obligations.StepRunsTheDecodedInstruction
  intro s i rest hr hpc _ hdecode
  have hF : Fetches s i := ⟨hr, _, fetchWord_of_le hpc, decodeWord_of_decode_pair hdecode⟩
  exact ⟨s.advancePc, hF.step_eq_exec, advancePc_toNat hpc, rfl⟩

theorem tableBytes_word (w : Word) : tableBytes 16 w.toNat = wordBytes w := by
  rw [tableBytes, Nat.mod_eq_of_lt w.isLt, BitVec.ofNat_toNat, BitVec.setWidth_eq]

/-- Two bytes written inside canonical memory are read back in their order. -/
theorem read_writeBytes_pair {m : List Host.Cell} {a : Nat} (hm : Memory.wf m = true)
    (ha : a ≤ 4094) (hi lo : Byte) :
    Memory.read (Memory.writeBytes m a [hi, lo]) a = hi ∧
      Memory.read (Memory.writeBytes m a [hi, lo]) (a + 1) = lo := by
  have ha0 : a < Config.memSize := by simp only [Config.memSize_eq]; omega
  have ha1 : a + 1 < Config.memSize := by simp only [Config.memSize_eq]; omega
  have hm' : Memory.wf (Memory.write m a hi) = true := Memory.write_wf hm ha0 hi
  simp [Memory.writeBytes, ha0, ha1, Memory.read_write hm', Memory.read_write hm]

theorem fetchWord_withFetchWord {s : State} (w : Word) (hm : Memory.wf s.mem = true)
    (hpc : s.pc.toNat ≤ 4094) : (s.withFetchWord 16 w.toNat).fetchWord = some w := by
  obtain ⟨hhi, hlo⟩ := read_writeBytes_pair hm hpc (hiByte w) (loByte w)
  rw [State.withFetchWord, tableBytes_word, fetchWord_of_le (by simpa using hpc)]
  simp only [State.read, State.placeInstr_mem, State.placeInstr_pc, wordBytes, hhi, hlo, be16_bytes]

/-- Settles O11: the two bytes placed at `pc` are fetched as the word they came from, which decodes
to the instruction, and the placement leaves the core `Running`. -/
theorem placedInstructionRunsNext : Obligations.PlacedInstructionRunsNext := by
  unfold Obligations.PlacedInstructionRunsNext
  intro s i hm hpc
  have hF : Fetches (s.withFetchWord 16 (encode i).toNat) i :=
    ⟨rfl, _, fetchWord_withFetchWord _ hm hpc, decodeWord_encode i⟩
  exact ⟨hF, hF.step_eq_exec⟩

end Sys2Proof.Proofs
end

section
/-! ## Where a step leaves `pc` (spec/10_state.md R26) -/

namespace Sys2Proof.Proofs
open Sys2Proof Sys2Proof.Machine

/-- An ALU instruction leaves `pc` where the advance put it. -/
theorem step_pc_of_alu {s t : State} {i : Instr} (hF : Fetches s i) (halu : i.isAlu = true)
    (h : step s = .next t) : t.pc.toNat = s.pc.toNat + 2 := by
  obtain ⟨x, hx⟩ := isAlu_iff_dest.mp halu
  obtain ⟨o, -, ho⟩ := exec_alu hx s.advancePc
  obtain ⟨-, hpc, -⟩ := writeBack_rest s.advancePc x o
  rw [hF.step_eq_exec, ho] at h
  cases h
  rw [hpc, advancePc_toNat hF.pc_le]

theorem step_of_halt {s t : State} (hF : Fetches s .halt) (h : step s = .next t) :
    t = s.advancePc.setRunState .halted := by
  rw [hF.step_eq_exec, exec_halt] at h
  cases h
  rfl

/-- A CALL below capacity: what is pushed, where `pc` goes, and the entries that stay (R131). -/
theorem step_of_call {s t : State} {a : Addr} (hF : Fetches s (.call a)) (hlt : s.sp.val < 16)
    (h : step s = .next t) :
    t.sp.val = s.sp.val + 1 ∧ t.pc.toNat = a.toNat ∧
      (t.stackAt ⟨s.sp.val, hlt⟩).toNat = s.pc.toNat + 2 ∧
      ∀ j, j ≠ ⟨s.sp.val, hlt⟩ → t.stackAt j = s.stackAt j := by
  obtain ⟨hbelow, -⟩ := callPushesAndJumpsUnlessTheStackIsFull a s.advancePc
  obtain ⟨u, hu, htop, hrest, hsp, hpc, -⟩ := hbelow ⟨s.sp.val, hlt⟩ rfl
  rw [hF.step_eq_exec, hu] at h
  cases h
  exact ⟨hsp, hpc, by rw [htop, advancePc_toNat hF.pc_le], hrest⟩

/-- A RET with a live entry (R133). -/
theorem step_of_ret {s t : State} {k : Fin 16} (hF : Fetches s .ret) (hk : s.sp.val = k.val + 1)
    (h : step s = .next t) : t.sp.val = k.val ∧ t.pc = s.stackAt k := by
  obtain ⟨hlive, -⟩ := retPopsUnlessTheStackIsEmpty s.advancePc
  obtain ⟨u, hu, hsp, hpc, -⟩ := hlive k hk
  rw [hF.step_eq_exec, hu] at h
  cases h
  exact ⟨hsp, hpc⟩

/-- Settles O18: each clause is the `pc` its instruction's meaning leaves on the state past the
word, and the advance does not wrap because the fetch succeeded. -/
theorem stepLeavesPcAsTheTableSays : Obligations.StepLeavesPcAsTheTableSays := by
  unfold Obligations.StepLeavesPcAsTheTableSays
  intro s t i hF h
  have hadvance : s.advancePc.pc.toNat = s.pc.toNat + 2 := advancePc_toNat hF.pc_le
  refine ⟨?alu_or_halt, ?call, ?overflow, ?ret, ?underflow⟩
  case alu_or_halt =>
    rintro (halu | rfl)
    · exact step_pc_of_alu hF halu h
    · rw [step_of_halt hF h]
      exact hadvance
  case call =>
    rintro a rfl hlt
    obtain ⟨-, hpc, -⟩ := step_of_call hF hlt h
    exact hpc
  case overflow =>
    rintro a rfl h16
    rw [step_of_call_on_full_stack hF h16] at h
    cases h
    exact hadvance
  case ret =>
    rintro rfl k hk
    obtain ⟨-, hpc⟩ := step_of_ret hF hk h
    exact hpc
  case underflow =>
    rintro rfl h0
    rw [step_of_ret_on_empty_stack hF h0] at h
    cases h
    exact hadvance

end Sys2Proof.Proofs
end

section
/-! ## The flag (spec/10_state.md R24) -/

namespace Sys2Proof.Proofs
open Sys2Proof Sys2Proof.Machine

/-- The flag written is what `VF` holds afterwards, unless `V[15]` is the destination. -/
theorem getV_flag_writeBack (s : State) {x : Reg} {o : AluOut} {f : Byte} (hx : x ≠ 15)
    (ho : o.flag = some f) : (s.writeBack x o).getV 15 = f := by
  obtain ⟨b, _⟩ := o
  cases ho
  cases b with
  | none => exact getV_flag_writeBack_noResult s x f
  | some b => exact getV_flag_writeBack_result s hx b f

theorem some_bit_zero_or_one (a : Byte) :
    some (Alu.bit a 0) = some 0 ∨ some (Alu.bit a 0) = some 1 :=
  (Alu.bit_zero_or_one a 0).imp (congrArg some) (congrArg some)

/-- The five instructions that write the flag answer a write-back whose flag is 0 or 1. -/
theorem exec_writes_flag {i : Instr} {x : Reg} (hx : i.dest = some x) (hi : i.writesFlag = true)
    (s : State) :
    ∃ o : AluOut, (o.flag = some 0 ∨ o.flag = some 1) ∧ exec i s = .next (s.writeBack x o) := by
  cases i <;> cases hi <;> cases hx
  case add y => exact ⟨_, Alu.add_flag _ _, exec_add x y s⟩
  case sub y => exact ⟨_, Alu.sub_flag _ _, exec_sub x y s⟩
  case rsub y => exact ⟨_, Alu.sub_flag _ _, exec_rsub x y s⟩
  case shr y => exact ⟨_, some_bit_zero_or_one _, exec_shr x y s⟩
  case shl y => exact ⟨_, some_bit_zero_or_one _, exec_shl x y s⟩

/-- Settles O29: the flag of the write-back is 0 or 1, and the result goes to another register. -/
theorem flagIsZeroOrOne : Obligations.FlagIsZeroOrOne := by
  unfold Obligations.FlagIsZeroOrOne
  intro i x s t hx h15 hi h
  obtain ⟨o, ho, hexec⟩ := exec_writes_flag hx hi s
  rw [hexec] at h
  cases h
  exact ho.imp (getV_flag_writeBack s h15) (getV_flag_writeBack s h15)

end Sys2Proof.Proofs
end

section
/-! ## What a step writes (spec/10_state.md R37, spec/20_memory.md R60) -/

namespace Sys2Proof.Proofs
open Sys2Proof Sys2Proof.Machine

theorem step_keeps_mem {s t : State} (h : step s = .next t) : t.mem = s.mem := by
  cases step_cases h with
  | stopped | outOfBounds | unimplemented | halt | underflow | overflow => rfl
  | alu i x o =>
    obtain ⟨hm, -⟩ := writeBack_rest s.advancePc x o
    exact hm
  | ret _ _ _ _ _ _ _ _ hm => exact hm
  | call _ _ _ _ _ _ _ _ _ _ hm => exact hm

theorem step_keeps_stack_unless_call {s t : State} (h : step s = .next t) :
    t.stack = s.stack ∨ ∃ a, Fetches s (.call a) := by
  cases step_cases h with
  | stopped | outOfBounds | unimplemented | halt | underflow | overflow => exact .inl rfl
  | alu i x o =>
    obtain ⟨-, -, hstack, -⟩ := writeBack_rest s.advancePc x o
    exact .inl hstack
  | ret _ _ _ _ _ _ hstack => exact .inl hstack
  | call _ a _ hF => exact .inr ⟨a, hF⟩

theorem step_keeps_sp_unless_call_or_ret {s t : State} (h : step s = .next t) :
    t.sp = s.sp ∨ Fetches s .ret ∨ ∃ a, Fetches s (.call a) := by
  cases step_cases h with
  | stopped | outOfBounds | unimplemented | halt | underflow | overflow => exact .inl rfl
  | alu i x o =>
    obtain ⟨-, -, -, hsp, -⟩ := writeBack_rest s.advancePc x o
    exact .inl hsp
  | ret _ _ hF => exact .inr (.inl hF)
  | call _ a _ hF => exact .inr (.inr ⟨a, hF⟩)

theorem running_of_fetches {s : State} {i : Instr} (h : Fetches s i) :
    s.status.state = .running := by
  obtain ⟨hr, -⟩ := h
  exact hr

/-- Everything a step can do to `status`: nothing, HALT's write, or a raise. -/
theorem step_status_cases {s t : State} (h : step s = .next t) :
    t.status = s.status ∨
    (Fetches s .halt ∧ t.status = ⟨.halted, s.status.cause⟩) ∨
    (s.status.state = .running ∧ ∃ c, t.status = ⟨.faulted, some c⟩) := by
  cases step_cases h with
  | stopped => exact .inl rfl
  | alu i x o =>
    obtain ⟨-, -, -, -, hst⟩ := writeBack_rest s.advancePc x o
    exact .inl hst
  | ret _ _ _ _ _ _ _ _ _ hst => exact .inl hst
  | call _ _ _ _ _ _ _ _ _ _ _ hst => exact .inl hst
  | halt hF => exact .inr (.inl ⟨hF, rfl⟩)
  | outOfBounds hr | unimplemented _ _ hr => exact .inr (.inr ⟨hr, _, rfl⟩)
  | underflow hF | overflow _ hF => exact .inr (.inr ⟨running_of_fetches hF, _, rfl⟩)

/-- The registers a write-back changes are the destination and, where there is a flag, `V[15]`. -/
theorem dest_or_flag_of_getV_writeBack_ne {s : State} {x r : Reg} {o : AluOut}
    (h : (s.writeBack x o).getV r ≠ s.getV r) : r = x ∨ (r = 15 ∧ o.flag.isSome = true) := by
  by_contra hn
  obtain ⟨hx, hflag⟩ := not_or.mp hn
  obtain ⟨b, f⟩ := o
  cases b <;> cases f <;> simp_all [getV_writeBack]

theorem step_changes_only_dest_or_flag {s t : State} {r : Reg} (h : step s = .next t)
    (hr : t.getV r ≠ s.getV r) :
    ∃ i, Fetches s i ∧ (i.dest = some r ∨ (r = 15 ∧ i.writesFlag = true)) := by
  cases step_cases h with
  | stopped | outOfBounds | unimplemented | halt | underflow | overflow => exact absurd rfl hr
  | ret _ _ _ _ _ _ _ hv => exact absurd (sameV_of_v_eq hv r) hr
  | call _ _ _ _ _ _ _ _ _ hv => exact absurd (sameV_of_v_eq hv r) hr
  | alu i x o hF hx hflag =>
    rcases dest_or_flag_of_getV_writeBack_ne hr with rfl | ⟨h15, hsome⟩
    · exact ⟨i, hF, .inl hx⟩
    · exact ⟨i, hF, .inr ⟨h15, hflag hsome⟩⟩

/-! ### What the host writes -/

/-- No request but reset writes the stack, `sp` or the cause. -/
theorem serve_keeps_stack_and_cause {q : HostRequest} {s t : State} (h : serve q s = some t)
    (hq : q ≠ .reset) :
    t.stack = s.stack ∧ t.sp = s.sp ∧ t.status.cause = s.status.cause := by
  rcases serve_cases h with ⟨rfl, -⟩ | ⟨-, -, rfl⟩ | ⟨-, -, rfl⟩ | ⟨_, _, -, -, rfl⟩ |
    ⟨_, _, -, -, rfl⟩ | ⟨_, -, -, rfl⟩
  · exact absurd rfl hq
  all_goals exact ⟨rfl, rfl, rfl⟩

theorem serve_keeps_status {q : HostRequest} {s t : State} (h : serve q s = some t)
    (hq : q ≠ .reset) (hrun : q ≠ .run) : t.status = s.status := by
  rcases serve_cases h with ⟨rfl, -⟩ | ⟨rfl, -⟩ | ⟨rfl, -⟩ | ⟨_, _, -, -, rfl⟩ |
    ⟨_, _, -, -, rfl⟩ | ⟨_, -, -, rfl⟩
  · exact absurd rfl hq
  · exact absurd rfl hrun
  · exact absurd rfl hrun
  all_goals rfl

/-- Where the host may not write, every request it has is reset or changes nothing (D12, D14). -/
theorem serve_of_not_hostMayWrite {q : HostRequest} {s t : State} (hw : s.hostMayWrite = false)
    (h : serve q s = some t) : (q = .reset ∧ t = State.reset) ∨ t = s := by
  rcases serve_cases h with hreset | ⟨-, hw', -⟩ | ⟨-, -, rfl⟩ | ⟨_, _, -, hw', -⟩ |
    ⟨_, _, -, hw', -⟩ | ⟨_, -, hw', -⟩
  · exact .inl hreset
  · exact absurd (hw.symm.trans hw') Bool.false_ne_true
  · exact .inr rfl
  all_goals exact absurd (hw.symm.trans hw') Bool.false_ne_true

theorem hostMayWrite_eq_false_iff {s : State} :
    s.hostMayWrite = false ↔ s.status.state = .running ∨ s.status.state = .faulted := by
  simp only [State.hostMayWrite]
  cases s.status.state <;> simp

/-- Settles O39: by the cases of a step and of a request, each element apart. -/
theorem eachElementHasOnlyItsWriters : Obligations.EachElementHasOnlyItsWriters := by
  unfold Obligations.EachElementHasOnlyItsWriters
  constructor
  · intro s t h
    refine ⟨step_keeps_mem h, fun hr => ?stopped, fun r hr => step_changes_only_dest_or_flag h hr,
      (step_keeps_stack_unless_call h).resolve_left,
      (step_keeps_sp_unless_call_or_ret h).resolve_left, fun hne => ?status⟩
    case stopped =>
      rw [step_of_not_running hr] at h
      cases h
      rfl
    case status =>
      rcases step_status_cases h with hst | ⟨hF, -⟩ | ⟨-, c, hst⟩
      · exact absurd hst hne
      · exact .inr hF
      · exact .inl (congrArg Status.state hst)
  · intro q s t h
    refine ⟨?reset, fun hq => ?other⟩
    case reset =>
      rintro rfl
      exact (Option.some.inj h).symm
    case other =>
      obtain ⟨hstack, hsp, hcause⟩ := serve_keeps_stack_and_cause h hq
      refine ⟨hstack, hsp, hcause, serve_keeps_status h hq, fun hr => ?_⟩
      rcases serve_of_not_hostMayWrite (hostMayWrite_eq_false_iff.mpr (.inl hr)) h with ⟨e, -⟩ | e
      · exact absurd e hq
      · exact e

/-! ### Runs -/

/-- What every step keeps, a run of any length keeps. -/
theorem runFor_induction {P : State → Prop} (hstep : ∀ s t, P s → step s = .next t → P t)
    {k : Nat} {s t : State} (hs : P s) (h : runFor k s = .next t) : P t := by
  induction k generalizing s with
  | zero =>
    cases h
    exact hs
  | succ k ih =>
    obtain ⟨u, hu⟩ := exists_step_eq_next s
    rw [runFor_succ k hu] at h
    exact ih (hstep s u hs hu) h

/-- Settles O38: no step writes memory, so no run does, and a read is a function of memory. -/
theorem noRunWritesMemory : Obligations.NoRunWritesMemory := by
  unfold Obligations.NoRunWritesMemory
  intro k s t h
  have hm : t.mem = s.mem :=
    runFor_induction (P := fun u => u.mem = s.mem) (fun _ _ hu hs => (step_keeps_mem hs).trans hu)
      rfl h
  exact sameMem_of_mem_eq hm

end Sys2Proof.Proofs
end

section
/-! ## The invariant (spec/10_state.md R27, R31, R33) -/

namespace Sys2Proof.Proofs
open Sys2Proof Sys2Proof.Machine

/-! ### Steps -/

theorem statusConsistent_of_status_eq {s t : State} (hs : StatusConsistent s)
    (h : t.status = s.status) : StatusConsistent t := by
  unfold StatusConsistent
  rw [h]
  exact hs

/-- A state that is not `Faulted` and meets the invariant names no fault. -/
theorem cause_eq_none {s : State} (hs : StatusConsistent s) (h : s.status.state ≠ .faulted) :
    s.status.cause = none :=
  Option.not_isSome_iff_eq_none.mp (mt hs.mp h)

theorem statusConsistent_of_cause_none {s : State} (hc : s.status.cause = none)
    (h : s.status.state ≠ .faulted) : StatusConsistent s := by
  unfold StatusConsistent
  simp [hc, h]

theorem statusConsistent_of_faulted {s : State} {c : Fault} (h : s.status = ⟨.faulted, some c⟩) :
    StatusConsistent s := by
  unfold StatusConsistent
  simp [h]

theorem step_keeps_statusConsistent {s t : State} (hs : StatusConsistent s)
    (h : step s = .next t) : StatusConsistent t := by
  rcases step_status_cases h with hst | ⟨hF, hst⟩ | ⟨-, c, hst⟩
  · exact statusConsistent_of_status_eq hs hst
  · have hc : s.status.cause = none := cause_eq_none hs (by simp [running_of_fetches hF])
    exact statusConsistent_of_cause_none (by simp [hst, hc]) (by simp [hst])
  · exact statusConsistent_of_faulted hst

/-- The live entries depend on the stack and on `sp` alone, and fewer of them ask for less. -/
theorem liveEntriesInRange_of_stack_eq {s t : State} (hs : LiveEntriesInRange s)
    (hstack : t.stack = s.stack) (hsp : t.sp.val ≤ s.sp.val) : LiveEntriesInRange t := by
  intro k hk
  rw [stackAt_eq_of_stack_eq hstack]
  exact hs k (by omega)

/-- CALL adds the address past its word, 2 to 4096 because the fetch succeeded; RET takes an entry
away; nothing else touches the stack. -/
theorem step_keeps_liveEntriesInRange {s t : State} (hs : LiveEntriesInRange s)
    (h : step s = .next t) : LiveEntriesInRange t := by
  cases step_cases h with
  | stopped | outOfBounds | unimplemented | halt | underflow | overflow => exact hs
  | alu i x o =>
    obtain ⟨-, -, hstack, hsp, -⟩ := writeBack_rest s.advancePc x o
    exact liveEntriesInRange_of_stack_eq hs hstack (congrArg Fin.val hsp).le
  | ret _ k _ hk hsp _ hstack => exact liveEntriesInRange_of_stack_eq hs hstack (by omega)
  | call _ a k hF hk hsp htop hrest =>
    intro j hj
    by_cases hjk : j = k
    · rw [hjk, htop, advancePc_toNat hF.pc_le]
      have := hF.pc_le
      omega
    · rw [hrest j hjk]
      have : j.val ≠ k.val := fun e => hjk (Fin.ext e)
      exact hs j (by omega)

/-- Settles O41: a step writes no memory, its writes of `status` name a cause exactly when they
fault, and what it pushes is an address past a fetched word. -/
theorem everyStepKeepsInv : Obligations.EveryStepKeepsInv := by
  unfold Obligations.EveryStepKeepsInv
  rintro s t ⟨hm, hst, hlive⟩ h
  exact ⟨by rw [step_keeps_mem h]; exact hm, step_keeps_statusConsistent hst h,
    step_keeps_liveEntriesInRange hlive h⟩

/-! ### Host requests and reachable states -/

/-- Settles O40: reset memory lists no byte, the reset status is `Idle` with no cause, and `sp` is
0, so no entry is live. -/
theorem resetSatisfiesInv : Obligations.ResetSatisfiesInv := by
  unfold Obligations.ResetSatisfiesInv
  exact ⟨Memory.reset_wf, statusConsistent_of_cause_none rfl nofun,
    fun k hk => absurd hk (Nat.not_lt_zero k.val)⟩

theorem statusConsistent_setRunState_running {s : State} (hs : StatusConsistent s)
    (hw : s.hostMayWrite = true) : StatusConsistent (s.setRunState .running) := by
  have hnot : s.status.state ≠ .faulted := by
    rcases hostMayWrite_iff.mp hw with h | h <;> simp [h]
  have hc : s.status.cause = none := cause_eq_none hs hnot
  exact statusConsistent_of_cause_none hc nofun

/-- Settles O42: a run request comes through only where no fault is named, and the write of a byte,
whose 12-bit address is inside memory, keeps memory canonical; neither they nor the other requests
but reset touch the stack. -/
theorem everyHostRequestKeepsInv : Obligations.EveryHostRequestKeepsInv := by
  unfold Obligations.EveryHostRequestKeepsInv
  rintro q s t ⟨hm, hst, hlive⟩ h
  rcases serve_cases h with ⟨-, rfl⟩ | ⟨-, hw, rfl⟩ | ⟨-, -, rfl⟩ | ⟨a, b, -, -, rfl⟩ |
    ⟨_, _, -, -, rfl⟩ | ⟨_, -, -, rfl⟩
  · exact resetSatisfiesInv
  · exact ⟨hm, statusConsistent_setRunState_running hst hw, hlive⟩
  · exact ⟨hm, hst, hlive⟩
  · exact ⟨Memory.write_wf hm a.isLt b, hst, hlive⟩
  all_goals exact ⟨hm, hst, hlive⟩

theorem reachable_inv {s : State} (h : Reachable s) : MachineInv s := by
  induction h with
  | reset => exact resetSatisfiesInv
  | step _ hstep ih => exact everyStepKeepsInv _ _ ih hstep
  | host q _ hserve ih => exact everyHostRequestKeepsInv q _ _ ih hserve

theorem faulted_iff_names_fault {s : State} (hs : StatusConsistent s) :
    s.status.state = .faulted ↔ ∃ c, s.status = ⟨.faulted, some c⟩ := by
  constructor
  · intro h
    obtain ⟨c, hc⟩ := Option.isSome_iff_exists.mp (hs.mpr h)
    exact ⟨c, by rw [← h, ← hc]⟩
  · rintro ⟨c, hc⟩
    exact congrArg Status.state hc

/-- Settles O43: by induction on how the state is reached. -/
theorem everyReachableStateSatisfiesInv : Obligations.EveryReachableStateSatisfiesInv := by
  unfold Obligations.EveryReachableStateSatisfiesInv
  intro s h
  have hinv : MachineInv s := reachable_inv h
  exact ⟨hinv, faulted_iff_names_fault hinv.statusConsistent⟩

/-! ### The range of `pc` (R27) -/

theorem advancePc_pc_le {s : State} (h : s.pc.toNat ≤ 4094) :
    s.advancePc.pc.toNat ≤ 4096 := by
  rw [advancePc_toNat h]
  omega

/-- After a fetch that succeeds `pc` is past the word, at a 12-bit target, or at a live entry. -/
theorem step_pc_le_of_pc_le {s t : State} (hlive : LiveEntriesInRange s)
    (hpc : s.pc.toNat ≤ 4096) (h : step s = .next t) : t.pc.toNat ≤ 4096 := by
  cases step_cases h with
  | stopped | outOfBounds => exact hpc
  | unimplemented w e _ hf => exact advancePc_pc_le (pc_le_of_fetchWord hf)
  | alu i x o hF =>
    obtain ⟨-, heq, -⟩ := writeBack_rest s.advancePc x o
    rw [heq]
    exact advancePc_pc_le hF.pc_le
  | halt hF | underflow hF | overflow _ hF => exact advancePc_pc_le hF.pc_le
  | ret _ k _ hk _ heq =>
    obtain ⟨-, hle⟩ := hlive k (by omega)
    rw [heq]
    exact hle
  | call _ a _ _ _ _ _ _ heq =>
    rw [heq, callTarget_toNat]
    have := a.isLt
    omega

/-- Settles O44: the invariant and the bound on `pc` are kept together by every step; a fetch that
succeeds begins within the bound. -/
theorem pcStaysAtMost4096 : Obligations.PcStaysAtMost4096 := by
  unfold Obligations.PcStaysAtMost4096
  constructor
  · intro k s t hinv hpc h
    have hkept : MachineInv t ∧ t.pc.toNat ≤ 4096 :=
      runFor_induction (P := fun u => MachineInv u ∧ u.pc.toNat ≤ 4096)
        (fun u v ⟨hu, hle⟩ hstep => ⟨everyStepKeepsInv u v hu hstep,
          step_pc_le_of_pc_le hu.liveEntries hle hstep⟩)
        ⟨hinv, hpc⟩ h
    exact hkept.2
  · intro s t w hinv hf h
    have hpc : s.pc.toNat ≤ 4094 := pc_le_of_fetchWord hf
    exact step_pc_le_of_pc_le hinv.liveEntries (by omega) h

end Sys2Proof.Proofs
end

section
/-! ## The call stack over several steps (spec/42_control_flow.md R134) -/

namespace Sys2Proof.Proofs
open Sys2Proof Sys2Proof.Machine

theorem step_of_call_sp {s t : State} {a : Addr} (hF : Fetches s (.call a))
    (hlt : s.sp.val < 16) (h : step s = .next t) : t.sp.val = s.sp.val + 1 := by
  obtain ⟨hsp, -⟩ := step_of_call hF hlt h
  exact hsp

theorem step_of_ret_sp {s t : State} (hF : Fetches s .ret) (h0 : s.sp.val ≠ 0)
    (h : step s = .next t) : t.sp.val = s.sp.val - 1 := by
  have hlt := s.sp.isLt
  obtain ⟨hsp, -⟩ := step_of_ret (k := ⟨s.sp.val - 1, by omega⟩) hF (by simp only; omega) h
  exact hsp

/-- A step writes no live entry: CALL writes the slot above them. -/
theorem step_keeps_live_entry {s t : State} {j : Fin 16} (h : step s = .next t)
    (hj : j.val < s.sp.val) : t.stackAt j = s.stackAt j := by
  rcases step_keeps_stack_unless_call h with hstack | ⟨a, hF⟩
  · exact stackAt_eq_of_stack_eq hstack j
  by_cases hlt : s.sp.val < 16
  · obtain ⟨-, -, -, hrest⟩ := step_of_call hF hlt h
    exact hrest j fun e => by simp [e] at hj
  · have h16 : s.sp.val = 16 := by have := s.sp.isLt; omega
    rw [step_of_call_on_full_stack hF h16] at h
    cases h
    rfl

/-- A step that lowers `sp` is a RET: it lowers `sp` by one and goes to the entry it uncovers. -/
theorem step_lowering_sp_returns {s t : State} (h : step s = .next t)
    (hlt : t.sp.val < s.sp.val) :
    ∃ k : Fin 16, s.sp.val = k.val + 1 ∧ t.sp.val = k.val ∧ t.pc = s.stackAt k := by
  cases step_cases h with
  | stopped | outOfBounds | unimplemented | halt | underflow | overflow =>
    exact absurd hlt (lt_irrefl _)
  | alu i x o =>
    obtain ⟨-, -, -, hsp, -⟩ := writeBack_rest s.advancePc x o
    rw [hsp] at hlt
    exact absurd hlt (lt_irrefl _)
  | ret _ k _ hs hsp hpc => exact ⟨k, hs, hsp, hpc⟩
  | call _ _ _ _ hs hsp => omega

/-- A run one step longer ends with a step. -/
theorem runFor_succ_last {k : Nat} {s t u : State} (hk : runFor k s = .next t)
    (h : runFor (k + 1) s = .next u) : step t = .next u := by
  obtain ⟨v, hv⟩ := exists_step_eq_next t
  rw [runFor_add 1 hk, runFor_succ 0 hv] at h
  cases h
  exact hv

/-- While `sp` stays above a depth, the entries up to that depth stay as they are. -/
theorem runFor_keeps_entries_below {d k : Nat} {s : State}
    (hdeep : ∀ j, j ≤ k → ∃ v, runFor j s = .next v ∧ d < v.sp.val) :
    ∃ v, runFor k s = .next v ∧ d < v.sp.val ∧
      ∀ j : Fin 16, j.val ≤ d → v.stackAt j = s.stackAt j := by
  induction k with
  | zero =>
    obtain ⟨v, hv, hd⟩ := hdeep 0 le_rfl
    cases hv
    exact ⟨s, rfl, hd, fun _ _ => rfl⟩
  | succ k ih =>
    obtain ⟨u, hu, hdu, hkeeps⟩ := ih fun j hj => hdeep j (by omega)
    obtain ⟨v, hv, hdv⟩ := hdeep (k + 1) le_rfl
    have hstep : step u = .next v := runFor_succ_last hu hv
    refine ⟨v, hv, hdv, fun j hj => ?_⟩
    rw [step_keeps_live_entry hstep (by omega), hkeeps j hj]

/-- Settles O37: the CALL saves the address past its word in the slot at its `sp`; that slot and the
older ones are live, so kept, until a step brings `sp` back, and that step is a RET to the saved
address. -/
theorem callStackIsLastInFirstOut : Obligations.CallStackIsLastInFirstOut := by
  unfold Obligations.CallStackIsLastInFirstOut
  intro s t u a k hF hlt hcall hdeep hrun hback
  obtain ⟨-, -, hsaved, hrest⟩ := step_of_call hF hlt hcall
  obtain ⟨v, hv, hdv, hkeeps⟩ := runFor_keeps_entries_below hdeep
  have hstep : step v = .next u := runFor_succ_last hv hrun
  obtain ⟨i, -, hui, hpc⟩ := step_lowering_sp_returns hstep (by omega)
  obtain rfl : i = ⟨s.sp.val, hlt⟩ := Fin.ext (by simp only; omega)
  refine ⟨by rw [hpc, hkeeps _ le_rfl, hsaved], fun j hj => ?_⟩
  have hj' : j ≠ ⟨s.sp.val, hlt⟩ := fun e => by simp [e] at hj
  rw [step_keeps_live_entry hstep (by omega), hkeeps j hj.le, hrest j hj']

/-- Settles O36: both properties are returns to the depth of the outer CALL, whose `sp` each step
between stays above; the general sentence gives `pc`. -/
theorem callThenReturnRestoresPcAndSp : Obligations.CallThenReturnRestoresPcAndSp := by
  unfold Obligations.CallThenReturnRestoresPcAndSp
  constructor
  · intro s t u a hcall hlt hs hret ht
    have hspt : t.sp.val = s.sp.val + 1 := step_of_call_sp hcall hlt hs
    have hspu : u.sp.val = s.sp.val := by rw [step_of_ret_sp hret (by omega) ht]; omega
    have hdeep : ∀ j, j ≤ 0 → ∃ x, runFor j t = .next x ∧ s.sp.val < x.sp.val := by
      intro j hj
      obtain rfl : j = 0 := by omega
      exact ⟨t, rfl, by omega⟩
    obtain ⟨hpc, -⟩ :=
      callStackIsLastInFirstOut s t u a 0 hcall hlt hs hdeep (runFor_succ 0 ht) hspu
    exact ⟨hpc, Fin.ext hspu⟩
  · intro s t u v w a b h0 hcall hs hcall' ht hret hu hret' hv
    have hspt : t.sp.val = s.sp.val + 1 := step_of_call_sp hcall (by omega) hs
    have hspu : u.sp.val = t.sp.val + 1 := step_of_call_sp hcall' (by omega) ht
    have hspv : v.sp.val = t.sp.val := by rw [step_of_ret_sp hret (by omega) hu]; omega
    have hspw : w.sp.val = s.sp.val := by rw [step_of_ret_sp hret' (by omega) hv]; omega
    have run1 : runFor 1 t = .next u := runFor_succ 0 ht
    have run2 : runFor 2 t = .next v := (runFor_add 1 run1).trans (runFor_succ 0 hu)
    have run3 : runFor 3 t = .next w := (runFor_add 1 run2).trans (runFor_succ 0 hv)
    have hdeep : ∀ j, j ≤ 2 → ∃ x, runFor j t = .next x ∧ s.sp.val < x.sp.val := by
      intro j hj
      obtain rfl | rfl | rfl : j = 0 ∨ j = 1 ∨ j = 2 := by omega
      · exact ⟨t, rfl, by omega⟩
      · exact ⟨u, run1, by omega⟩
      · exact ⟨v, run2, by omega⟩
    obtain ⟨hpc, -⟩ :=
      callStackIsLastInFirstOut s t w a 2 hcall (by omega) hs hdeep run3 hspw
    exact ⟨by omega, hpc⟩

end Sys2Proof.Proofs
end

section
/-! ## How a run ends (spec/40_fetch_decode_dispatch.md R99, spec/43_halt_run_host.md R144) -/

namespace Sys2Proof.Proofs
open Sys2Proof Sys2Proof.Machine

/-! ### A run halts exactly by fetching 0x0000 -/

theorem fetchWord_zero_of_step_halts {s t : State} (hr : s.status.state = .running)
    (h : step s = .next t) (ht : t.status.state = .halted) : s.fetchWord = some 0 := by
  rcases step_status_cases h with hst | ⟨hF, -⟩ | ⟨-, c, hst⟩
  · rw [hst, hr] at ht
    cases ht
  · exact fetchWord_eq_encode hF
  · rw [hst] at ht
    cases ht

/-- The step of a run that ended it in a halt. -/
theorem exists_halting_step {k : Nat} {s t : State} (hr : s.status.state = .running)
    (h : runFor k s = .next t) (ht : t.status.state = .halted) :
    ∃ j u, j < k ∧ runFor j s = .next u ∧ u.status.state = .running ∧ u.fetchWord = some 0 := by
  induction k generalizing s with
  | zero =>
    cases h
    rw [hr] at ht
    cases ht
  | succ k ih =>
    obtain ⟨v, hv⟩ := exists_step_eq_next s
    rw [runFor_succ k hv] at h
    by_cases hrv : v.status.state = .running
    · obtain ⟨j, u, hj, hu, hfetches⟩ := ih hrv h
      exact ⟨j + 1, u, by omega, (runFor_succ j hv).trans hu, hfetches⟩
    · rw [runFor_stopped hrv] at h
      cases h
      exact ⟨0, s, by omega, rfl, hr, fetchWord_zero_of_step_halts hr hv ht⟩

/-- Once a step of a run has fetched 0x0000, its state is the one that step left. -/
theorem runFor_after_halting_step {j k : Nat} {s t u : State} (h : runFor k s = .next t)
    (hj : j < k) (hu : runFor j s = .next u) (hr : u.status.state = .running)
    (hf : u.fetchWord = some 0) : t = u.advancePc.setRunState .halted := by
  have hstep : step u = .next (u.advancePc.setRunState .halted) :=
    (fetches_halt_of_fetchWord_zero hr hf).step_eq_exec
  have hstopped : (u.advancePc.setRunState .halted).status.state ≠ .running := nofun
  obtain ⟨d, rfl⟩ : ∃ d, k = j + (d + 1) := ⟨k - j - 1, by omega⟩
  rw [runFor_add (d + 1) hu, runFor_succ d hstep, runFor_stopped hstopped] at h
  cases h
  rfl

/-- Settles O45: only HALT's step leaves `Halted`, and HALT's word is 0x0000; the state it leaves is
stopped, so the rest of the run keeps it. -/
theorem runHaltsExactlyByFetchingZero : Obligations.RunHaltsExactlyByFetchingZero := by
  unfold Obligations.RunHaltsExactlyByFetchingZero
  intro k s t hr h
  refine ⟨⟨exists_halting_step hr h, ?_⟩, fun j u hj hu hru hf => ?_⟩
  · rintro ⟨j, u, hj, hu, hru, hf⟩
    rw [runFor_after_halting_step h hj hu hru hf]
    rfl
  · obtain rfl : t = u.advancePc.setRunState .halted :=
      runFor_after_halting_step h hj hu hru hf
    exact ⟨rfl, advancePc_toNat (pc_le_of_fetchWord hf)⟩

/-! ### Every run ends

The words of memory are fixed during a run and no instruction branches on data, so the rest of a run
depends on `pc` and the live entries alone: the places where the routines in progress, outermost
first, will go on.  A step advances the place of one routine; what lies further in starts afresh
(CALL) or goes away (RET), and what lies further out stays. -/

/-- How far below the top of the 16-bit range the routine at each depth will go on: those waiting
for a return at their entry, the innermost one at `pc`; 0 where there is no routine. -/
def resumeRank (s : State) (j : Fin 17) : Nat :=
  if h : j.val < s.sp.val then
    65536 - (s.stackAt ⟨j.val, Nat.lt_of_lt_of_le h (Nat.le_of_lt_succ s.sp.isLt)⟩).toNat
  else if j = s.sp then 65536 - s.pc.toNat
  else 0

theorem resumeRank_of_lt_sp {s : State} {j : Fin 17} (k : Fin 16) (hjk : j.val = k.val)
    (h : k.val < s.sp.val) : resumeRank s j = 65536 - (s.stackAt k).toNat := by
  simp [resumeRank, hjk, h]

theorem resumeRank_sp (s : State) : resumeRank s s.sp = 65536 - s.pc.toNat := by
  simp [resumeRank]

theorem resumeRank_of_sp_lt {s : State} {j : Fin 17} (h : s.sp.val < j.val) :
    resumeRank s j = 0 := by
  have hne : j ≠ s.sp := fun e => by simp [e] at h
  simp [resumeRank, hne, show ¬ j.val < s.sp.val by omega]

theorem resumeRank_eq_of_stackAt_eq {s t : State} {j : Fin 17} (k : Fin 16)
    (hjk : j.val = k.val) (hs : k.val < s.sp.val) (ht : k.val < t.sp.val)
    (h : t.stackAt k = s.stackAt k) : resumeRank t j = resumeRank s j := by
  rw [resumeRank_of_lt_sp k hjk ht, resumeRank_of_lt_sp k hjk hs, h]

/-- At the depth of the step the rank goes down, and at every depth further out it stays. -/
def RankDescends (s t : State) : Prop :=
  (∀ j : Fin 17, j.val < s.sp.val → resumeRank t j = resumeRank s j) ∧
    resumeRank t s.sp < resumeRank s s.sp

theorem rankDescends_of_advance {s t : State} (hsp : t.sp = s.sp) (hstack : t.stack = s.stack)
    (hpc : t.pc.toNat = s.pc.toNat + 2) (hle : s.pc.toNat ≤ 4094) : RankDescends s t := by
  constructor
  · intro j hj
    exact resumeRank_eq_of_stackAt_eq ⟨j.val, by omega⟩ rfl hj (hsp ▸ hj)
      (stackAt_eq_of_stack_eq hstack _)
  · rw [← hsp, resumeRank_sp, hsp, resumeRank_sp, hpc]
    omega

theorem rankDescends_of_ret {s t : State} {k : Fin 16} (hs : s.sp.val = k.val + 1)
    (hsp : t.sp.val = k.val) (hpc : t.pc = s.stackAt k) (hstack : t.stack = s.stack) :
    RankDescends s t := by
  constructor
  · intro j hj
    rcases Nat.lt_or_eq_of_le (show j.val ≤ k.val by omega) with hlt | heq
    · exact resumeRank_eq_of_stackAt_eq ⟨j.val, by omega⟩ rfl hj (hlt.trans_eq hsp.symm)
        (stackAt_eq_of_stack_eq hstack _)
    · obtain rfl : j = t.sp := Fin.ext (heq.trans hsp.symm)
      rw [resumeRank_sp, hpc, resumeRank_of_lt_sp k hsp (by omega)]
  · rw [resumeRank_of_sp_lt (by omega), resumeRank_sp]
    have := s.pc.isLt
    omega

theorem rankDescends_of_call {s t : State} {k : Fin 16} (hle : s.pc.toNat ≤ 4094)
    (hs : s.sp.val = k.val) (hsp : t.sp.val = k.val + 1) (htop : t.stackAt k = s.advancePc.pc)
    (hstack : ∀ j, j ≠ k → t.stackAt j = s.stackAt j) : RankDescends s t := by
  constructor
  · intro j hj
    have hjk : (⟨j.val, by omega⟩ : Fin 16) ≠ k := fun e => by simp [← e, hs] at hj
    exact resumeRank_eq_of_stackAt_eq _ rfl hj (by simp only; omega) (hstack _ hjk)
  · rw [resumeRank_of_lt_sp k hs (by omega), htop, advancePc_toNat hle, resumeRank_sp]
    omega

theorem step_stops_or_rankDescends {s t : State} (hr : s.status.state = .running)
    (h : step s = .next t) : t.status.state ≠ .running ∨ RankDescends s t := by
  cases step_cases h with
  | stopped hn => exact absurd hr hn
  | outOfBounds | unimplemented | halt | underflow | overflow => exact .inl nofun
  | alu i x o hF =>
    obtain ⟨-, hpc, hstack, hsp, -⟩ := writeBack_rest s.advancePc x o
    exact .inr (rankDescends_of_advance hsp hstack (by rw [hpc, advancePc_toNat hF.pc_le]) hF.pc_le)
  | ret _ k _ hs hsp hpc hstack => exact .inr (rankDescends_of_ret hs hsp hpc hstack)
  | call _ a k hF hs hsp htop hstack =>
    exact .inr (rankDescends_of_call hF.pc_le hs hsp htop hstack)

/-- The descent is one of the ranks in lexicographic order, outermost first. -/
theorem wellFounded_rankDescends : WellFounded fun t s => RankDescends s t := by
  have hlex : WellFounded fun f g : Lex (Fin 17 → Nat) => f < g := wellFounded_lt
  refine Subrelation.wf ?_ (InvImage.wf (fun s => toLex (resumeRank s)) hlex)
  intro t s ⟨houter, hdepth⟩
  exact ⟨s.sp, houter, hdepth⟩

theorem exists_runFor_not_running (s : State) :
    ∃ k t, runFor k s = .next t ∧ t.status.state ≠ .running := by
  induction s using wellFounded_rankDescends.induction with
  | _ s ih =>
    by_cases hr : s.status.state = .running
    · obtain ⟨t, ht⟩ := exists_step_eq_next s
      rcases step_stops_or_rankDescends hr ht with hstop | hdescends
      · exact ⟨1, t, runFor_succ 0 ht, hstop⟩
      · obtain ⟨k, u, hu, hstop⟩ := ih t hdescends
        exact ⟨k + 1, u, (runFor_succ k ht).trans hu, hstop⟩
    · exact ⟨0, s, rfl, hr⟩

theorem step_keeps_not_idle {s t : State} (hs : s.status.state ≠ .idle) (h : step s = .next t) :
    t.status.state ≠ .idle := by
  rcases step_status_cases h with hst | ⟨-, hst⟩ | ⟨-, c, hst⟩ <;> rw [hst]
  · exact hs
  · exact nofun
  · exact nofun

theorem halted_or_faulted_of_ended {r : RunState} (hrun : r ≠ .running) (hidle : r ≠ .idle) :
    r = .halted ∨ r = .faulted := by
  cases r with
  | idle => exact absurd rfl hidle
  | running => exact absurd rfl hrun
  | halted => exact .inl rfl
  | faulted => exact .inr rfl

/-- Settles O46: each step that does not end the run goes down in a well-founded order, and no step
of a run leaves `Idle`. -/
theorem everyRunEnds : Obligations.EveryRunEnds := by
  unfold Obligations.EveryRunEnds
  intro s
  obtain ⟨k, t, ht, hstop⟩ := exists_runFor_not_running s
  refine ⟨k, t, ht, hstop, fun hr => halted_or_faulted_of_ended hstop ?_⟩
  exact runFor_induction (P := fun u => u.status.state ≠ .idle)
    (fun _ _ => step_keeps_not_idle) (by simp [hr]) ht

/-! ### A run that meets neither CALL nor RET -/

theorem exists_runFor_eq_next (k : Nat) (s : State) : ∃ t, runFor k s = .next t := by
  induction k generalizing s with
  | zero => exact ⟨s, rfl⟩
  | succ k ih =>
    obtain ⟨u, hu⟩ := exists_step_eq_next s
    rw [runFor_succ k hu]
    exact ih u

/-- Such a step, if the run goes on after it, was an ALU instruction. -/
theorem straight_step_advances {s t : State} (hcf : ∀ i, Fetches s i → i ≠ .ret ∧ ∀ a, i ≠ .call a)
    (h : step s = .next t) (hr : t.status.state = .running) :
    s.status.state = .running ∧ s.pc.toNat ≤ 4094 ∧ t.pc.toNat = s.pc.toNat + 2 := by
  cases step_cases h with
  | stopped hn => exact absurd hr hn
  | outOfBounds | unimplemented | halt | underflow | overflow => cases hr
  | alu i x o hF hx =>
    have halu : i.isAlu = true := isAlu_iff_dest.mpr ⟨x, hx⟩
    exact ⟨running_of_fetches hF, hF.pc_le, step_pc_of_alu hF halu h⟩
  | ret _ _ hF =>
    obtain ⟨hret, -⟩ := hcf _ hF
    exact absurd rfl hret
  | call _ a _ hF =>
    obtain ⟨-, hcall⟩ := hcf _ hF
    exact absurd rfl (hcall a)

/-- A straight run that is still going after `k` steps has advanced `pc` that often, each time from
an address it could fetch at. -/
theorem straight_run_pc {k : Nat} {s t : State} (h0 : s.pc.toNat = 0)
    (hcf : ∀ j u i, runFor j s = .next u → Fetches u i → i ≠ .ret ∧ ∀ a, i ≠ .call a)
    (h : runFor k s = .next t) (hr : t.status.state = .running) :
    t.pc.toNat = 2 * k ∧ t.pc.toNat ≤ 4096 := by
  induction k generalizing t with
  | zero =>
    cases h
    omega
  | succ k ih =>
    obtain ⟨u, hu⟩ := exists_runFor_eq_next k s
    obtain ⟨hru, hle, hpc⟩ := straight_step_advances (hcf k u · hu) (runFor_succ_last hu h) hr
    obtain ⟨hpcu, -⟩ := ih hu hru
    omega

/-- Settles O47: after 2049 steps a straight run would have `pc` = 4098, beyond where any step from
an address it could fetch at leads. -/
theorem straightRunEndsWithin2049Steps : Obligations.StraightRunEndsWithin2049Steps := by
  unfold Obligations.StraightRunEndsWithin2049Steps
  intro s h0 hcf
  obtain ⟨t, ht⟩ := exists_runFor_eq_next 2049 s
  refine ⟨t, ht, fun hr => ?_⟩
  obtain ⟨hpc, hle⟩ := straight_run_pc h0 hcf ht hr
  omega

end Sys2Proof.Proofs
end

section
/-! ## Reset, the host's moves and the status port (spec/43_halt_run_host.md) -/

namespace Sys2Proof.Proofs
open Sys2Proof Sys2Proof.Machine

/-! ### Reset (R36) -/

/-- Settles O2: the core's reset is the reset state, whose elements are those of R36. -/
theorem powerOnStateIsZeroAndIdle : Obligations.PowerOnStateIsZeroAndIdle := by
  unfold Obligations.PowerOnStateIsZeroAndIdle
  exact ⟨rfl, State.getV_reset, State.read_reset, State.stackAt_reset, congrArg Fin.val sp_reset,
    pc_reset, rfl⟩

/-- Settles O3: reset memory reads 0 at addresses 0 and 1, so the step after the run request is
HALT's. -/
theorem unloadedMachineHaltsAtOnce : Obligations.UnloadedMachineHaltsAtOnce := by
  unfold Obligations.UnloadedMachineHaltsAtOnce
  have hF : Fetches (State.reset.setRunState .running) .halt :=
    fetches_halt_of_fetchWord_zero rfl (by decide)
  have hstep := hF.step_eq_exec.trans (exec_halt _)
  exact ⟨_, _, serve_run_of_hostMayWrite rfl, hstep, rfl, rfl, fun _ => rfl, ⟨rfl, fun _ => rfl⟩,
    rfl, rfl⟩

/-! ### The host (R141 to R146) -/

theorem serve_run_of_not_hostMayWrite {s : State} (h : s.hostMayWrite = false) :
    serve .run s = some s := by
  simp [serve, runRequest, h]

/-- Settles O49: a faulted core is stopped and gives the host no write, so it ignores steps and run
requests, and reset is the one request that changes anything. -/
theorem onlyResetLeavesAFault : Obligations.OnlyResetLeavesAFault := by
  unfold Obligations.OnlyResetLeavesAFault
  intro s hs
  have hw : s.hostMayWrite = false := hostMayWrite_eq_false_iff.mpr (.inr hs)
  exact ⟨step_of_not_running (by simp [hs]), serve_run_of_not_hostMayWrite hw,
    fun q t h => serve_of_not_hostMayWrite hw h⟩

theorem serve_writeMem (s : State) (a : Addr) (b : Byte) :
    serve (.writeMem a b) s = if s.hostMayWrite then some (s.writeMem a.toNat b) else none := rfl

theorem serve_writeV (s : State) (r : Reg) (b : Byte) :
    serve (.writeV r b) s = if s.hostMayWrite then some (s.setV r b) else none := rfl

theorem serve_writePc (s : State) (w : Word) :
    serve (.writePc w) s = if s.hostMayWrite then some (s.setPc w) else none := rfl

theorem read_writeMem {s : State} (hm : Memory.wf s.mem = true) (a i : Nat) (b : Byte) :
    (s.writeMem a b).read i = if i = a then b else s.read i :=
  Memory.read_write hm a i b

theorem onlyV_setV (s : State) (r : Reg) (b : Byte) : OnlyV s (s.setV r b) :=
  ⟨⟨rfl, fun _ => rfl⟩, rfl, ⟨rfl, rfl⟩, rfl⟩

theorem inspect_of_not_running {s : State} (h : s.status.state ≠ .running) :
    inspect s = some s := by
  unfold inspect
  split
  case h_1 hr => exact absurd hr h
  all_goals rfl

theorem inspect_of_running {s : State} (h : s.status.state = .running) : inspect s = none := by
  simp [inspect, h]

/-- Settles O50: the writes come through exactly where the host may write, each the one update its
state lemma describes, and the whole state is read wherever the core is not running. -/
theorem hostWritesOneElementBetweenRuns : Obligations.HostWritesOneElementBetweenRuns := by
  unfold Obligations.HostWritesOneElementBetweenRuns
  refine ⟨fun s hs => ?between, fun s hs => ?no_write, fun s hr => ?running, fun s hf => ?faulted⟩
  case between =>
    have hw : s.hostMayWrite = true := hostMayWrite_iff.mpr hs
    refine ⟨fun a b hm => ⟨_, (serve_writeMem s a b).trans (if_pos hw), ?_⟩,
      fun r b => ⟨_, (serve_writeV s r b).trans (if_pos hw), ?_⟩,
      fun w => ⟨_, (serve_writePc s w).trans (if_pos hw), ?_⟩, inspect_of_not_running ?_⟩
    · have hread := fun i => read_writeMem hm a.toNat i b
      exact ⟨(hread a.toNat).trans (if_pos rfl), fun i hi => (hread i).trans (if_neg hi),
        fun _ => rfl, ⟨rfl, rfl⟩, rfl, rfl⟩
    · exact ⟨s.getV_setV_same r b, fun q hq => s.getV_setV_ne b (List.ne_of_not_mem_cons hq),
        onlyV_setV s r b⟩
    · exact ⟨rfl, fun _ => rfl, ⟨rfl, fun _ => rfl⟩, ⟨rfl, rfl⟩, rfl⟩
    · rcases hs with h | h <;> simp [h]
  case no_write =>
    have hw : s.hostMayWrite = false := hostMayWrite_eq_false_iff.mpr hs
    exact ⟨fun a b => by rw [serve_writeMem, hw]; rfl, fun r b => by rw [serve_writeV, hw]; rfl,
      fun w => by rw [serve_writePc, hw]; rfl⟩
  case running =>
    exact ⟨inspect_of_running hr,
      serve_run_of_not_hostMayWrite (hostMayWrite_eq_false_iff.mpr (.inl hr))⟩
  case faulted => exact inspect_of_not_running (by simp [hf])

/-! ### The port `status` (R33) -/

theorem bits_toNat (t : Status) :
    t.bits.toNat = 4 * (causeCode t.cause).toNat + t.state.code.toNat := by
  have h := Nat.two_pow_add_eq_or_of_lt (i := 2) t.state.code.isLt (causeCode t.cause).toNat
  rw [Status.bits, BitVec.toNat_append, Nat.shiftLeft_eq, Nat.mul_comm, ← h]

theorem bits_mod_four (t : Status) : t.bits.toNat % 4 = t.state.code.toNat := by
  rw [bits_toNat]
  omega

theorem bits_div_four (t : Status) : t.bits.toNat / 4 = (causeCode t.cause).toNat := by
  rw [bits_toNat]
  omega

theorem runState_code_inj {r r' : RunState} : r.code.toNat = r'.code.toNat ↔ r = r' := by
  cases r <;> cases r' <;> decide

theorem causeCode_inj {c c' : Option Fault} :
    (causeCode c).toNat = (causeCode c').toNat ↔ c = c' := by
  rcases c with _ | (_ | _ | _ | _) <;> rcases c' with _ | (_ | _ | _ | _) <;> decide

theorem causeCode_le_four (c : Option Fault) : (causeCode c).toNat ≤ 4 := by
  rcases c with _ | c
  · decide
  · cases c <;> decide

/-- Settles O51: the two fields are the remainder and the quotient by 4, and no two values of a
field share a code. -/
theorem statusBitsAreStateAndCause : Obligations.StatusBitsAreStateAndCause := by
  unfold Obligations.StatusBitsAreStateAndCause
  intro t
  rw [bits_mod_four, bits_div_four]
  exact ⟨runState_code_inj (r' := .idle), runState_code_inj (r' := .running),
    runState_code_inj (r' := .halted), runState_code_inj (r' := .faulted),
    causeCode_inj (c' := none), causeCode_inj (c' := some .stackOverflow),
    causeCode_inj (c' := some .stackUnderflow), causeCode_inj (c' := some .outOfBounds),
    causeCode_inj (c' := some .unimplementedOpcode), causeCode_le_four t.cause⟩

end Sys2Proof.Proofs
end
